-- ==== Sys2Proof/Word.lean ====
section
/-! DEFINITION. The word types of the machine (spec R7, R8): a byte, the 16-bit instruction fields,
the 32-bit instruction word, and the 64-bit value of a register, of the program counter and of an
address. One type serves both readings of 64 bits: `toInt` is the spec's `Int64`, `toNat` its
`Bits64`. -/

namespace Sys2Proof

/-- One byte: an opcode, a register index or a memory cell's contents (R58). -/
abbrev Byte := BitVec 8

/-- A 16-bit instruction field: a jump offset or an absolute address (R59). -/
abbrev Half := BitVec 16

/-- An instruction word, its four bytes read little-endian (R10, R58). -/
abbrev InstrWord := BitVec 32

/-- A register value, a program counter or an address (R7). -/
abbrev Word := BitVec 64

end Sys2Proof
end

