-- ==== Sys2Proof/Syntax.lean ====
section
/-! DEFINITION. The instructions: one constructor per row of spec/opcode_table.json, with the
operand fields the row's format gives a meaning (R60 to R64) in the order of the bytes. A field the
format ignores is no operand (R69). -/

namespace Sys2Proof

/-- The 18 instructions of the fixed table (R66) and the custom space (R67). -/
inductive Instr where
  /-- NOOP, format N (R87). -/
  | noop
  /-- LD: address register `a`, destination register `d`, format M (R97). -/
  | ld (a d : Byte)
  /-- LDA: absolute address `addr`, destination register `d`, format A (R98). -/
  | lda (addr : Half) (d : Byte)
  /-- ST: value register `v`, address register `a`, format M (R99). -/
  | st (v a : Byte)
  /-- STA: absolute address `addr`, value register `v`, format A (R100). -/
  | sta (addr : Half) (v : Byte)
  /-- ADD, format R (R107). -/
  | add (s1 s2 d : Byte)
  /-- SUB, format R (R108). -/
  | sub (s1 s2 d : Byte)
  /-- MUL, format R (R109). -/
  | mul (s1 s2 d : Byte)
  /-- DIV, format R (R110). -/
  | div (s1 s2 d : Byte)
  /-- MOD, format R (R111). -/
  | mod (s1 s2 d : Byte)
  /-- AND, format R (R112). -/
  | and (s1 s2 d : Byte)
  /-- OR, format R (R113). -/
  | or (s1 s2 d : Byte)
  /-- XOR, format R (R114). -/
  | xor (s1 s2 d : Byte)
  /-- NOT: one source; byte 2 of the word is ignored (R115). -/
  | not (s1 d : Byte)
  /-- JZERO: test register `t`, signed word offset `off`, format J (R119). -/
  | jzero (t : Byte) (off : Half)
  /-- JNEG, format J (R120). -/
  | jneg (t : Byte) (off : Half)
  /-- JPOS, format J (R121). -/
  | jpos (t : Byte) (off : Half)
  /-- HALT, format N (R88). -/
  | halt
  /-- A word whose opcode the fixed table does not assign, format X: the whole word is the operand
  (R64, R67). -/
  | custom (w : InstrWord)
deriving DecidableEq, Repr

end Sys2Proof
end

