-- ==== Sys2Proof/Decode.lean ====
section
/-! DEFINITION. The codec (spec 30_encoding.md): the opcode table, the byte fields of a word, the
decoder, total on any bytes, and the encoder. The opcode numbers stand once, in `Opcode`, as the
spec asks of a model (R66, D1; log 15). -/

namespace Sys2Proof

/-! ### The opcode table (R66) -/

namespace Opcode

def noop : Byte := 0
def ld : Byte := 1
def lda : Byte := 2
def st : Byte := 8
def sta : Byte := 9
def add : Byte := 16
def sub : Byte := 17
def mul : Byte := 18
def div : Byte := 19
def mod : Byte := 20
def and : Byte := 32
def or : Byte := 33
def xor : Byte := 34
def not : Byte := 35
def jzero : Byte := 129
def jneg : Byte := 130
def jpos : Byte := 131
def halt : Byte := 255

/-- The load/store opcodes (R75). -/
def loadStore : List Byte := [ld, lda, st, sta]

/-- The ALU opcodes (R75). -/
def alu : List Byte := [add, sub, mul, div, mod, and, or, xor, not]

/-- The conditional-jump opcodes (R75). -/
def jump : List Byte := [jzero, jneg, jpos]

/-- The fixed table: every opcode the core itself implements (R66). -/
def fixed : List Byte := [noop] ++ loadStore ++ alu ++ jump ++ [halt]

end Opcode

/-- The dispatcher's opcode classes (R75). -/
inductive OpClass where
  | noop | loadStore | alu | jump | halt | custom
deriving DecidableEq, Repr

/-- The class of an opcode; CUSTOM is every opcode outside the fixed table (R75, R82). -/
def opClass (op : Byte) : OpClass :=
  if op = Opcode.noop then .noop
  else if op ∈ Opcode.loadStore then .loadStore
  else if op ∈ Opcode.alu then .alu
  else if op ∈ Opcode.jump then .jump
  else if op = Opcode.halt then .halt
  else .custom

/-! ### Words and bytes (R10, R58) -/

/-- The 32-bit reading of four bytes in address order, little-endian:
`b0 | b1 << 8 | b2 << 16 | b3 << 24` (R10). -/
def wordOfBytes (b0 b1 b2 b3 : Byte) : InstrWord :=
  b0.setWidth 32 ||| b1.setWidth 32 <<< 8 ||| b2.setWidth 32 <<< 16 ||| b3.setWidth 32 <<< 24

/-- Byte `k` of an instruction word (R58). -/
def byteOfWord (w : InstrWord) (k : Nat) : Byte := w.extractLsb' (8 * k) 8

/-- The four bytes of a word in address order (R58). -/
def bytesOfWord (w : InstrWord) : List Byte :=
  [byteOfWord w 0, byteOfWord w 1, byteOfWord w 2, byteOfWord w 3]

/-! ### The decoder -/

/-- The codec's six fields, produced for every word (R59). -/
structure Fields where
  opcode : Byte
  reg1 : Byte
  reg2 : Byte
  writeReg : Byte
  jumpOffset16 : Half
  absAddr16 : Half
deriving DecidableEq, Repr

/-- The field extraction of R59, a pure, total function of the word. -/
def fieldsOf (w : InstrWord) : Fields where
  opcode := byteOfWord w 0
  reg1 := byteOfWord w 1
  reg2 := byteOfWord w 2
  writeReg := byteOfWord w 3
  jumpOffset16 := w.extractLsb' 16 16
  absAddr16 := w.extractLsb' 8 16

/-- The instruction with these fields: the fixed table is consulted first, and only an opcode
absent from it is custom (R66, R67, R82). `w` is the word the fields come from. -/
def instrOfFields (f : Fields) (w : InstrWord) : Instr :=
  if f.opcode = Opcode.noop then .noop
  else if f.opcode = Opcode.ld then .ld f.reg1 f.writeReg
  else if f.opcode = Opcode.lda then .lda f.absAddr16 f.writeReg
  else if f.opcode = Opcode.st then .st f.reg1 f.reg2
  else if f.opcode = Opcode.sta then .sta f.absAddr16 f.writeReg
  else if f.opcode = Opcode.add then .add f.reg1 f.reg2 f.writeReg
  else if f.opcode = Opcode.sub then .sub f.reg1 f.reg2 f.writeReg
  else if f.opcode = Opcode.mul then .mul f.reg1 f.reg2 f.writeReg
  else if f.opcode = Opcode.div then .div f.reg1 f.reg2 f.writeReg
  else if f.opcode = Opcode.mod then .mod f.reg1 f.reg2 f.writeReg
  else if f.opcode = Opcode.and then .and f.reg1 f.reg2 f.writeReg
  else if f.opcode = Opcode.or then .or f.reg1 f.reg2 f.writeReg
  else if f.opcode = Opcode.xor then .xor f.reg1 f.reg2 f.writeReg
  else if f.opcode = Opcode.not then .not f.reg1 f.writeReg
  else if f.opcode = Opcode.jzero then .jzero f.reg1 f.jumpOffset16
  else if f.opcode = Opcode.jneg then .jneg f.reg1 f.jumpOffset16
  else if f.opcode = Opcode.jpos then .jpos f.reg1 f.jumpOffset16
  else if f.opcode = Opcode.halt then .halt
  else .custom w

/-- Decoding a word never fails (R59, R81). -/
def decodeWord (w : InstrWord) : Instr := instrOfFields (fieldsOf w) w

/-- Why bytes do not decode: fewer than the four bytes of an instruction (R71). -/
inductive DecodeError where
  | truncated (length : Nat)
deriving DecidableEq, Repr

/-- The instruction at the head of the bytes, and the bytes after it (R58, R71). -/
def decode : List Byte → Except DecodeError (Instr × List Byte)
  | b0 :: b1 :: b2 :: b3 :: rest => .ok (decodeWord (wordOfBytes b0 b1 b2 b3), rest)
  | bs => .error (.truncated bs.length)

/-! ### The encoder (R70) -/

/-- Format R: `op | s1 << 8 | s2 << 16 | d << 24`; format M is the same layout (R70). -/
def encodeR (op s1 s2 d : Byte) : InstrWord := wordOfBytes op s1 s2 d

/-- Format A: `op | zext_16(addr) << 8 | r << 24` (R70). -/
def encodeA (op : Byte) (addr : Half) (r : Byte) : InstrWord :=
  op.setWidth 32 ||| addr.setWidth 32 <<< 8 ||| r.setWidth 32 <<< 24

/-- Format J: `op | t << 8 | (off mod 2^16) << 16` (R70). -/
def encodeJ (op t : Byte) (off : Half) : InstrWord :=
  op.setWidth 32 ||| t.setWidth 32 <<< 8 ||| off.setWidth 32 <<< 16

/-- Format N: the opcode alone (R70). -/
def encodeN (op : Byte) : InstrWord := op.setWidth 32

/-- The word of an instruction, zero in every ignored field (R70, D21). A custom instruction is its
own word (R64, R73). -/
def encode : Instr → InstrWord
  | .noop => encodeN Opcode.noop
  | .ld a d => encodeR Opcode.ld a 0 d
  | .lda addr d => encodeA Opcode.lda addr d
  | .st v a => encodeR Opcode.st v a 0
  | .sta addr v => encodeA Opcode.sta addr v
  | .add s1 s2 d => encodeR Opcode.add s1 s2 d
  | .sub s1 s2 d => encodeR Opcode.sub s1 s2 d
  | .mul s1 s2 d => encodeR Opcode.mul s1 s2 d
  | .div s1 s2 d => encodeR Opcode.div s1 s2 d
  | .mod s1 s2 d => encodeR Opcode.mod s1 s2 d
  | .and s1 s2 d => encodeR Opcode.and s1 s2 d
  | .or s1 s2 d => encodeR Opcode.or s1 s2 d
  | .xor s1 s2 d => encodeR Opcode.xor s1 s2 d
  | .not s1 d => encodeR Opcode.not s1 0 d
  | .jzero t off => encodeJ Opcode.jzero t off
  | .jneg t off => encodeJ Opcode.jneg t off
  | .jpos t off => encodeJ Opcode.jpos t off
  | .halt => encodeN Opcode.halt
  | .custom w => w

/-- The opcode an instruction is encoded with (R66); a custom word carries its own (R64). -/
def Instr.opcode : Instr → Byte
  | .noop => Opcode.noop
  | .ld _ _ => Opcode.ld
  | .lda _ _ => Opcode.lda
  | .st _ _ => Opcode.st
  | .sta _ _ => Opcode.sta
  | .add _ _ _ => Opcode.add
  | .sub _ _ _ => Opcode.sub
  | .mul _ _ _ => Opcode.mul
  | .div _ _ _ => Opcode.div
  | .mod _ _ _ => Opcode.mod
  | .and _ _ _ => Opcode.and
  | .or _ _ _ => Opcode.or
  | .xor _ _ _ => Opcode.xor
  | .not _ _ => Opcode.not
  | .jzero _ _ => Opcode.jzero
  | .jneg _ _ => Opcode.jneg
  | .jpos _ _ => Opcode.jpos
  | .halt => Opcode.halt
  | .custom w => byteOfWord w 0

/-- The bits of a word that its opcode's format gives a meaning; the others are ignored (R60 to
R64, R69). -/
def usedBits (op : Byte) : InstrWord :=
  if op = Opcode.noop then 0x000000FF
  else if op = Opcode.halt then 0x000000FF
  else if op = Opcode.ld then 0xFF00FFFF
  else if op = Opcode.not then 0xFF00FFFF
  else if op = Opcode.st then 0x00FFFFFF
  else 0xFFFFFFFF

/-- The word whose low `nbits` bits are those of `w`, every higher bit 0. -/
def tableWord (nbits w : Nat) : InstrWord := BitVec.ofNat 32 (w % 2 ^ nbits)

/-- The instruction the decoder reads from a word of spec/opcode_table.json's numbering, laid out as
the image holds it, lowest byte at the lowest address (R58). -/
def decodeTableWord (nbits w : Nat) : Option Instr :=
  match decode (bytesOfWord (tableWord nbits w)) with
  | .ok (i, _) => some i
  | .error _ => none

end Sys2Proof
end

