-- ==== Sys2Proof/Config.lean ====
section
/-! DEFINITION. What a launch fixes and what the spec leaves open: the launch parameters that stay
constant for a run (R7, R29), the vocabulary in which a custom handler acts on the core (R124,
R127), the events of a schedule (R11), and the free values that stand for what no source fixes: a
handler's behaviour (I14, D34; log 7) and an unlisted schedule (I4, I5; log 4). -/

namespace Sys2Proof

/-- The launch parameters no step writes (R7, R29). N is the length of the register file plus 2
(log 1); the image and the handlers are fields of the state beside these. -/
structure Params where
  /-- MAXADDR, the caller-configured maximum address, compared unsigned (R36, D12). -/
  maxAddr : Word
  /-- LAT, the per-opcode latency table as a list of pairs; an opcode it does not list has latency
  0, and the first pair of an opcode counts (log 17). -/
  lat : List (Byte × Nat)
deriving DecidableEq, Repr, Inhabited

/-- A handler's own state, opaque to the core (R25). The core reads it only through `isBusy`, so it
is a busy flag beside a number that encodes the rest (log 7). -/
structure HandlerState where
  busy : Bool
  data : Nat
deriving DecidableEq, Repr, Inhabited

/-- What a handler may ask of the core, each a checked operation (R124, R127). -/
inductive Action where
  /-- Read register `i`. -/
  | read (i : Byte)
  /-- Write `v` to register `i`. -/
  | write (i : Byte) (v : Word)
  /-- Issue a load at `a` for register `d`. -/
  | load (a : Word) (d : Byte)
  /-- Issue a store of register `s` at `a`. -/
  | store (a : Word) (s : Byte)
  /-- Set the program counter reference; without meaning outside `execute` (R131). -/
  | setPC (p : Word)
deriving DecidableEq, Repr, Inhabited

/-- What `execute` sees of the core: the program counter and the registers x[0 .. N-1] (R124). -/
structure CoreView where
  pc : Word
  regs : List Word
deriving DecidableEq, Repr, Inhabited

/-- What `execute` answers: the handler's next state, its status (0 = success, R128), and its
actions in order (R124). -/
structure Reply where
  state : HandlerState
  status : Int
  actions : List Action
deriving DecidableEq, Repr, Inhabited

/-- A step some agent may take (R11). -/
inductive Event where
  /-- The scheduler calls `advance` (R76). -/
  | tick
  /-- The memory interface performs the in-flight request `id` and delivers its completion (R44). -/
  | memory (id : Nat)
  /-- The memory interface delivers a completion for an identifier that is not pending (R95, log 9). -/
  | stray (id : Nat) (data : Word)
  /-- Handler `index` of the registry takes its internal step number `choice` (R131). -/
  | handler (index choice : Nat)
deriving DecidableEq, Repr, Inhabited

/-- A free value: the `execute` of the handler of extension `ext`, where its launch data lists no
reply (log 7). No body: nothing is known of it. -/
opaque Config.handlerExecute (ext : Nat) (st : HandlerState) (w : InstrWord) (view : CoreView) : Reply

/-- A free value: the further internal steps of the handler of extension `ext` from a state, numbered
by `choice`, where its launch data lists none (R131, log 7). -/
opaque Config.handlerStep (ext : Nat) (st : HandlerState) (choice : Nat) :
    Option (HandlerState × List Action)

/-- A free value: event number `position` of the infinite schedule number `seed` (R11, R14, log 4). -/
opaque Config.freeEvent (seed position : Nat) : Event

end Sys2Proof
end

