-- ==== Sys2Proof/Machine/State.lean ====
section
/-! DEFINITION. The state of the machine as plain data (spec 10_state.md, 20_memory.md), the fatal
conditions (R137), and the state after reset (R31). INVENTORY.md lists every field with its rule. -/

namespace Sys2Proof.Machine

/-- The fatal conditions with the information each records (R137). `pc` is the program counter when
the condition is detected. -/
inductive FatalCondition where
  /-- 1: a load or store start address not below MAXADDR. -/
  | addressOutOfRange (address pc : Word)
  /-- 2: a fetch at or above MAXADDR, or not wholly inside the image body. -/
  | fetchOutOfRange (pc : Word)
  /-- 3: a write of register 0 or 1. -/
  | reservedRegisterWrite (index : Byte) (pc : Word)
  /-- 4: a register read or write with an index not below N. -/
  | registerIndexOutOfRange (index : Byte) (pc : Word)
  /-- 5: an opcode nobody claims, or a claiming handler's nonzero status. -/
  | unknownInstruction (word : InstrWord) (pc : Word) (status : Option Int)
  /-- 6: a completion whose identifier is not pending. -/
  | unknownRequestId (id : Nat) (pc : Word)
  /-- 7: DIV or MOD with divisor 0. -/
  | divideByZero (pc : Word)
  /-- 8: DIV or MOD of the most negative value by -1. -/
  | divideOverflow (pc : Word)
  /-- 9: an image shorter than its header's lengths. -/
  | imageMalformed (dataLength instLength fileLength : Nat)
deriving DecidableEq, Repr

/-- The run state (R24). Halted and Faulted are terminal (R85, R86). -/
inductive RunState where
  | running
  | halted
  | faulted (c : FatalCondition)
deriving DecidableEq, Repr

/-- One entry of a handler's `execute` as launch data: in state `before`, for this word and view, it
answers `reply` (R124, log 7). -/
structure ExecEntry where
  before : HandlerState
  word : InstrWord
  view : CoreView
  reply : Reply
deriving DecidableEq, Repr

/-- One internal step a handler may take from state `before` (R131, log 7). -/
structure StepEntry where
  before : HandlerState
  after : HandlerState
  actions : List Action
deriving DecidableEq, Repr

/-- A registered handler instance (R25, R124, R125). Only `state` changes during a run. -/
structure Handler where
  /-- The extension it implements; at most one instance per extension (R125). -/
  ext : Nat
  /-- The opcodes `canClaim` accepts, a fixed predicate on the opcode (R124). -/
  claims : List Byte
  /-- Its own state (R25). -/
  state : HandlerState
  /-- The listed part of its `execute`; `Config.handlerExecute` is the rest (log 7). -/
  execs : List ExecEntry
  /-- The listed part of its internal steps; `Config.handlerStep` is the rest (log 7). -/
  steps : List StepEntry
deriving DecidableEq, Repr

/-- The loaded image (R27, R40): the header's two lengths and the body, which is the literal pool,
the instruction words and the zero padding. -/
structure Image where
  dataLength : Nat
  instLength : Nat
  body : List Byte
deriving DecidableEq, Repr

/-- Data memory (R36): (address, byte) pairs in the canonical form of `Memory.wf` (Ops.lean). -/
abbrev Memory := List Host.Cell

/-- What a request does (R39): a read of 8 bytes, or a write of an 8-byte value. -/
inductive RequestKind where
  | read
  | write (v : Word)
deriving DecidableEq, Repr

/-- A request the memory interface holds (R39, R44). Its size is always 8 (D10). -/
structure Request where
  id : Nat
  addr : Word
  kind : RequestKind
deriving DecidableEq, Repr

/-- What the schedule goes on with when the agenda lists nothing more (log 4): the interleaving of the
agents is free (R11, R14, I4), and a completion may be delayed for ever (I5, R165). -/
inductive Later where
  /-- The one fair schedule of `defaultEvent` (log 5). -/
  | fair
  /-- These events over and over; with ticks alone, a pending completion never comes (R165). With
  none, as `fair`. -/
  | repeating (events : List Event)
  /-- The free schedule of `Config.freeEvent`, from this position on. -/
  | free (seed position : Nat)
deriving DecidableEq, Repr

/-- The pending-request table (R22): request identifier to the destination register of a load, or
none for a store, by rising identifier. -/
abbrev Pending := List (Nat × Option Byte)

/-- The whole state. `nextId`, `agenda`, `later` and `started` are the model's own
(log 4, log 6, log 23). -/
structure State where
  /-- Slots 2 to N-1 (R15); N is the length plus 2 (log 1). -/
  regs : List Word
  /-- The program counter (R20). -/
  pc : Word
  /-- The latency counter (R23). -/
  stall : Nat
  /-- The run state (R24). -/
  run : RunState
  /-- The pending-request table (R22). -/
  pending : Pending
  /-- The handler registry, in registration order (R25). -/
  handlers : List Handler
  /-- The loaded image (R27). -/
  image : Image
  /-- MAXADDR and LAT (R7). -/
  params : Params
  /-- Data memory (R36). -/
  mem : Memory
  /-- The requests sent and not yet performed, oldest first (R44). -/
  inflight : List Request
  /-- The identifier `sendRequest` returns next (R57, log 6). -/
  nextId : Nat
  /-- The next events of the schedule (R11, R91, log 4). -/
  agenda : List Event
  /-- What the schedule goes on with after the agenda (R11, R165, log 4). -/
  later : Later
  /-- The first tick has been taken: until then no other agent steps (R135, R155, log 23). -/
  started : Bool
deriving DecidableEq, Repr

/-- No constructor. Every fatal condition of the spec has a described entry, the state Faulted
(R138), which is a next state; nothing else stops this machine (log 10). -/
inductive Fault
deriving DecidableEq, Repr

/-- Why the model does not run. -/
inductive Refusal where
  /-- Raised by `exec` alone, for an instruction without a meaning yet (none is left). Safe. -/
  | notModelled (mnemonic : String)
  /-- Raised by `construct` for a register count below 2, which no launch may have (R7, I12). Safe. -/
  | registerCountBelowTwo (n : Nat)
  /-- Raised by `construct` for a preload of a register that is not one of 2 to N-1 (R32). Safe. -/
  | preloadOutOfRange (index : Byte)
  /-- Raised by `construct` for two handlers of one extension (R125). Safe. -/
  | extensionRegisteredTwice
deriving DecidableEq, Repr

/-! ### Named updates: one per field a step may write -/

def State.setRegs (s : State) (x : List Word) : State := { s with regs := x }
def State.setPc (s : State) (x : Word) : State := { s with pc := x }
def State.setStall (s : State) (x : Nat) : State := { s with stall := x }
def State.setRun (s : State) (x : RunState) : State := { s with run := x }
def State.setPending (s : State) (x : Pending) : State := { s with pending := x }
def State.setHandlers (s : State) (x : List Handler) : State := { s with handlers := x }
def State.setMem (s : State) (x : Memory) : State := { s with mem := x }
def State.setInflight (s : State) (x : List Request) : State := { s with inflight := x }
def State.setNextId (s : State) (x : Nat) : State := { s with nextId := x }
def State.setAgenda (s : State) (x : List Event) : State := { s with agenda := x }
def State.setLater (s : State) (x : Later) : State := { s with later := x }
def State.setStarted (s : State) (x : Bool) : State := { s with started := x }

/-- N, the register count (R15, log 1). -/
def State.n (s : State) : Nat := s.regs.length + 2

/-! ### Reset -/

/-- The image of a file of 24 zero bytes: both lengths 0, no body (R40, log 2). -/
def Image.empty : Image := { dataLength := 0, instLength := 0, body := [] }

/-- The launch parameters of `State.reset`: MAXADDR 4096 and latency 0 for every opcode, the common
conventions of spec/95_test_vectors.md (DESIGN CHOICE, log 2). -/
def Params.atReset : Params := { maxAddr := 4096, lat := [] }

/-- The state after reset (R31, R153) of a core launched with N = 8 (the default, R7), the
parameters of `Params.atReset`, no handlers and the empty image (log 2): registers zero, `pc` the
`dataLength` of the image, nothing pending, running, no tick taken. That its schedule lists nothing and is then the fair
one is a choice of the model (log 4, log 5). -/
def State.reset : State where
  regs := List.replicate 6 0
  pc := 0
  stall := 0
  run := .running
  pending := []
  handlers := []
  image := Image.empty
  params := Params.atReset
  mem := []
  inflight := []
  nextId := 0
  agenda := []
  later := .fair
  started := false

end Sys2Proof.Machine
end

