-- ==== Sys2Proof/Machine/Ops.lean ====
section
/-! DEFINITION. The shared operations: entering the Faulted state, the register file, the bytes of
data memory, the pending-request table and the load/store controller (spec 10_state.md,
20_memory.md, 41_load_store.md, 60_exceptions.md). An operation that may raise answers
`Except FatalCondition`; `commit` turns the answer into a step. -/

namespace Sys2Proof.Machine

/-- An outcome of this machine. -/
abbrev Result := Host.Outcome State Fault Refusal

/-! ### Fatal conditions (R138) -/

/-- Entering the Faulted state: `run` records the condition, every other piece of state keeps the
value it had at the raise, and the step ends (R138). There is no handler, no saved context and no
return (R142). -/
def raise (c : FatalCondition) (s : State) : Result := .next (s.setRun (.faulted c))

/-- A step that went through, or the raise it met. The raise leaves the state before the operation,
so `commit` fits operations whose checks all come before their effects (R139). -/
def commit (s : State) : Except FatalCondition State → Result
  | .ok t => .next t
  | .error c => raise c s

/-- The number of a fatal condition (R137). -/
def FatalCondition.code : FatalCondition → Nat
  | .addressOutOfRange _ _ => 1
  | .fetchOutOfRange _ => 2
  | .reservedRegisterWrite _ _ => 3
  | .registerIndexOutOfRange _ _ => 4
  | .unknownInstruction _ _ _ => 5
  | .unknownRequestId _ _ => 6
  | .divideByZero _ => 7
  | .divideOverflow _ => 8
  | .imageMalformed _ _ _ => 9

/-! ### Registers (R16 to R18) -/

/-- The dynamic data base, the constant register 1 reads (R16, C6). -/
def ddb : Word := 0

/-- `x[i]` (R17). Register 0 reads the program counter, register 1 the constant DDB. -/
def readReg (s : State) (i : Byte) : Except FatalCondition Word :=
  if i = 0 then .ok s.pc
  else if i = 1 then .ok ddb
  else if s.n ≤ i.toNat then .error (.registerIndexOutOfRange i s.pc)
  else .ok (s.regs.getD (i.toNat - 2) 0)

/-- `x[i] <- v` (R18). Registers 0 and 1 are never written. -/
def writeReg (s : State) (i : Byte) (v : Word) : Except FatalCondition State :=
  if i.toNat < 2 then .error (.reservedRegisterWrite i s.pc)
  else if s.n ≤ i.toNat then .error (.registerIndexOutOfRange i s.pc)
  else .ok (s.setRegs (s.regs.set (i.toNat - 2) v))

/-! ### Bytes of data memory (R36 to R38) -/

/-- What an address the list does not name reads as: INIT_MEM where nothing is listed. DESIGN CHOICE,
unsafe (log 3). -/
def initByte : Byte := 0

/-- The byte at an address. -/
def Memory.get : Memory → Nat → Byte
  | [], _ => initByte
  | (x, c) :: m, a => if x = a then c else Memory.get m a

/-- Put an entry in front of the rest, unless it says what an unlisted address reads as anyway. -/
def Memory.cons (a : Nat) (b : Byte) (m : Memory) : Memory :=
  if b = initByte then m else (a, b) :: m

/-- The memory with byte `b` at address `a`; keeps the canonical form. -/
def Memory.set : Memory → Nat → Byte → Memory
  | [], a, b => Memory.cons a b []
  | (x, c) :: m, a, b =>
    if a < x then Memory.cons a b ((x, c) :: m)
    else if a = x then Memory.cons a b m
    else (x, c) :: Memory.set m a b

/-- The memory with these bytes from address `a` on. -/
def Memory.setBytes (m : Memory) (a : Nat) : List Byte → Memory
  | [] => m
  | b :: bs => Memory.setBytes (m.set a b) (a + 1) bs

/-- Byte `k` of a 64-bit value, `v[8k+7:8k]` (R38). -/
def byteOf (v : Word) (k : Nat) : Byte := v.extractLsb' (8 * k) 8

/-- The eight bytes of a value in address order, little-endian (R38). -/
def bytesOf (v : Word) : List Byte :=
  [byteOf v 0, byteOf v 1, byteOf v 2, byteOf v 3, byteOf v 4, byteOf v 5, byteOf v 6, byteOf v 7]

/-- MemRead(a, 8): `Mem[a] | Mem[a+1] << 8 | ... | Mem[a+7] << 56` (R38, R44). -/
def Memory.read8 (m : Memory) (a : Nat) : Word :=
  (m.get a).setWidth 64 ||| (m.get (a + 1)).setWidth 64 <<< 8 |||
    (m.get (a + 2)).setWidth 64 <<< 16 ||| (m.get (a + 3)).setWidth 64 <<< 24 |||
    (m.get (a + 4)).setWidth 64 <<< 32 ||| (m.get (a + 5)).setWidth 64 <<< 40 |||
    (m.get (a + 6)).setWidth 64 <<< 48 ||| (m.get (a + 7)).setWidth 64 <<< 56

/-- MemWrite(a, 8, v): byte `k` of the value goes to `a + k` (R38, R44). -/
def Memory.write8 (m : Memory) (a : Nat) (v : Word) : Memory := m.setBytes a (bytesOf v)

/-- The canonical form: addresses strictly rising and below 2^64, and no entry that says what an
unlisted address reads as. -/
def Memory.wf (m : Memory) : Bool :=
  decide (m.Pairwise fun p q => p.1 < q.1) && m.all fun p => p.1 < 2 ^ 64 && p.2 != initByte

/-! ### The pending-request table (R22) -/

/-- `pending[id] := e`, keeping the identifiers rising. -/
def Pending.insert : Pending → Nat → Option Byte → Pending
  | [], id, e => [(id, e)]
  | (k, f) :: p, id, e =>
    if id < k then (id, e) :: (k, f) :: p
    else if id = k then (id, e) :: p
    else (k, f) :: Pending.insert p id e

/-- The entry of an identifier, if it is a key. -/
def Pending.find (p : Pending) (id : Nat) : Option (Option Byte) := p.lookup id

/-- `delete pending[id]`. -/
def Pending.erase (p : Pending) (id : Nat) : Pending := p.filter fun q => q.1 != id

/-- `hasPending()`: the table is not empty (R22, R96). -/
def hasPending (s : State) : Bool := !s.pending.isEmpty

/-! ### The load/store controller (R93 to R95) -/

/-- `sendRequest`, and the entry under the identifier it returns: the request is in flight from here
on (R39, R57, R101). -/
def sendRequest (s : State) (addr : Word) (kind : RequestKind) (entry : Option Byte) : State :=
  ((s.setInflight (s.inflight ++ [{ id := s.nextId, addr := addr, kind := kind }])).setPending
    (s.pending.insert s.nextId entry)).setNextId (s.nextId + 1)

/-- `issueLoad(a, d)` (R93). The destination is not checked here (D28). -/
def issueLoad (s : State) (a : Word) (d : Byte) : Except FatalCondition State :=
  if a < s.params.maxAddr then .ok (sendRequest s a .read (some d))
  else .error (.addressOutOfRange a s.pc)

/-- `issueStore(a, r)`: the bound first, then the value of register `r`, sampled now (R94, R140). -/
def issueStore (s : State) (a : Word) (r : Byte) : Except FatalCondition State :=
  if a < s.params.maxAddr then do
    let v ← readReg s r
    .ok (sendRequest s a (.write v) none)
  else .error (.addressOutOfRange a s.pc)

/-- `onCompletion(id, data)` (R95). The entry is deleted before the write, so a load whose write
faults leaves the table without it. After the end of the run nothing happens (R104). -/
def onCompletion (s : State) (id : Nat) (data : Word) : Result :=
  if s.run = .running then
    match s.pending.find id with
    | none => raise (.unknownRequestId id s.pc) s
    | some none => .next (s.setPending (s.pending.erase id))
    | some (some d) =>
      let t := s.setPending (s.pending.erase id)
      commit t (writeReg t d data)
  else .next s

/-! ### Latency and the program counter -/

/-- LAT[op] (R84, log 17). -/
def latency (p : Params) (op : Byte) : Nat := (p.lat.lookup op).getD 0

/-- The address after the instruction at `pc`, modulo 2^64 (R71, R83, D39). -/
def nextPc (pc : Word) : Word := pc + 4

/-- The advance that ends the dispatch of every instruction but a taken jump and a custom one
(R83). -/
def advancePc (s : State) : State := s.setPc (nextPc s.pc)

end Sys2Proof.Machine
end

