-- ==== Sys2Proof/Machine/Custom.lean ====
section
/-! DEFINITION. The custom-instruction dispatcher (spec 44_custom.md): who claims an opcode, what the
claiming handler's `execute` answers, and its actions on the core, each a checked operation. A
handler's behaviour is a launch parameter no source gives (I14, log 7). -/

namespace Sys2Proof.Machine

/-- `canClaim(op)` (R124). -/
def Handler.canClaim (h : Handler) (op : Byte) : Bool := h.claims.contains op

/-- `isBusy()` (R124). -/
def Handler.isBusy (h : Handler) : Bool := h.state.busy

/-- `anyBusy()`: some registered handler reports busy (R77, R130). -/
def anyBusy (s : State) : Bool := s.handlers.any Handler.isBusy

/-- What a handler's `execute` answers in its present state: the listed reply for this state, word
and view, else the free value (R124, R127, log 7). -/
def Handler.execute (h : Handler) (w : InstrWord) (view : CoreView) : Reply :=
  match h.execs.find? fun e => e.before == h.state && e.word == w && e.view == view with
  | some e => e.reply
  | none => Config.handlerExecute h.ext h.state w view

/-- The internal step number `choice` a handler may take in its present state: the listed ones
first, then the free ones (R131, log 7). -/
def Handler.stepChoice (h : Handler) (choice : Nat) : Option (HandlerState × List Action) :=
  let listed := h.steps.filter fun e => e.before == h.state
  match listed[choice]? with
  | some e => some (e.after, e.actions)
  | none => Config.handlerStep h.ext h.state (choice - listed.length)

/-- The registers x[0 .. N-1] and the program counter as a handler sees them (R124, R16). A core with
more than 256 registers behaves as one with 256 (D31): only the 256 that an index can name are shown.
That D31 holds for this view too is a DESIGN CHOICE (log 21). -/
def coreView (s : State) : CoreView :=
  { pc := s.pc, regs := (s.pc :: ddb :: s.regs).take 256 }

/-- Handler `i` of the registry goes to state `st`; nothing else of the registry changes (R25). -/
def setHandlerState (s : State) (i : Nat) (st : HandlerState) : State :=
  s.setHandlers (s.handlers.modify i fun h => { h with state := st })

/-- One action on the core, through the checked operations (R127, R132, R133). A read only checks
its index; the program counter reference is not part of the state (`pcAfter`). -/
def applyAction (s : State) : Action → Except FatalCondition State
  | .read i => do
    let _ ← readReg s i
    .ok s
  | .write i v => writeReg s i v
  | .load a d => issueLoad s a d
  | .store a r => issueStore s a r
  | .setPC _ => .ok s

/-- The program counter reference after an action: `SetPC(p)` sets it (R127). -/
def pcAfter (pcH : Word) : Action → Word
  | .setPC p => p
  | .read _ | .write _ _ | .load _ _ | .store _ _ => pcH

/-- Actions in order, with the program counter reference: what the state and the reference are when
they end or one raises, and the condition it raised (R126, R127). -/
def applyActions (s : State) (pcH : Word) : List Action → State × Word × Option FatalCondition
  | [] => (s, pcH, none)
  | act :: acts =>
    match applyAction s act with
    | .error c => (s, pcH, some c)
    | .ok t => applyActions t (pcAfter pcH act) acts

/-- The first handler in registration order that claims the opcode, with its place (R125, R126). -/
def claimant (s : State) (op : Byte) : Option (Nat × Handler) :=
  match s.handlers.findIdx? (·.canClaim op) with
  | none => none
  | some i => s.handlers[i]?.map fun h => (i, h)

/-- CUSTOM (R126 to R129, R134, R135): the first claiming handler executes, its state is stored, its
actions are applied, a nonzero status is fatal with those effects kept, and success sets the
program counter to the reference plus 4. An unclaimed opcode is fatal with nothing changed. -/
def execCustom (w : InstrWord) (s : State) : Result :=
  match claimant s (byteOfWord w 0) with
  | none => raise (.unknownInstruction w s.pc none) s
  | some (i, h) =>
    let reply := h.execute w (coreView s)
    match applyActions (setHandlerState s i reply.state) s.pc reply.actions with
    | (t, _, some c) => raise c t
    | (t, pcH, none) =>
      if reply.status = 0 then .next (t.setPc (nextPc pcH))
      else raise (.unknownInstruction w s.pc (some reply.status)) t

end Sys2Proof.Machine
end

