-- ==== Sys2Proof/Machine/Agents.lean ====
section
/-! DEFINITION. The agents beside the core (R11): the memory interface (R44), the custom handlers'
own steps (R131), and the schedule that says who is next (log 4, log 5). A step that is not enabled
is no move: the state stays (log 8). -/

namespace Sys2Proof.Machine

/-! ### The memory interface -/

/-- A request is performed only if its eight bytes lie below MAXADDR (R43, R44). -/
def admissible (s : State) (r : Request) : Bool :=
  decide (r.addr.toNat + 8 ≤ s.params.maxAddr.toNat)

/-- Perform a request and deliver its completion, in one atomic step (R44, D43). A store's
completion carries data that is ignored (D44); after the end of the run the access still happens
and the completion has no effect (R104, I25). -/
def performRequest (s : State) (r : Request) : Result :=
  let t := s.setInflight (s.inflight.filter fun q => q.id != r.id)
  match r.kind with
  | .read => onCompletion t r.id (t.mem.read8 r.addr.toNat)
  | .write v => onCompletion (t.setMem (t.mem.write8 r.addr.toNat v)) r.id 0

/-- The step of the memory interface for the in-flight request `id` (R44). -/
def memoryStep (s : State) (id : Nat) : Result :=
  match s.inflight.find? fun q => q.id == id with
  | none => .next s
  | some r => if admissible s r then performRequest s r else .next s

/-- A completion that performs no request. For an identifier that is not pending it is the protocol
violation of R95; for one that is pending the host has no such move (R57, R156, I27, log 9). -/
def strayCompletion (s : State) (id : Nat) (data : Word) : Result :=
  match s.pending.find id with
  | none => onCompletion s id data
  | some _ => .next s

/-! ### A handler's own steps -/

/-- The actions of a handler step after HALT: only register writes reach the core, and an action that
fails its check ends the list without changing the run state (R34, R163, log 11). A load or store that
passes its checks is dropped, one that fails them ends the list like any other action: the spec does
not say which, DESIGN CHOICE (log 22). -/
def applyAfterHalt (s : State) : List Action → State
  | [] => s
  | .write i v :: acts =>
    match writeReg s i v with
    | .ok t => applyAfterHalt t acts
    | .error _ => s
  | .read i :: acts =>
    match readReg s i with
    | .ok _ => applyAfterHalt s acts
    | .error _ => s
  | .load a d :: acts =>
    match issueLoad s a d with
    | .ok _ => applyAfterHalt s acts
    | .error _ => s
  | .store a r :: acts =>
    match issueStore s a r with
    | .ok _ => applyAfterHalt s acts
    | .error _ => s
  | .setPC _ :: acts => applyAfterHalt s acts

/-- Handler `i` takes its internal step `choice` (R131): its state changes, and its actions are
applied as in `execute`, except SetPC, which is ignored. After a fault only its own state changes
(R138, R150, log 11). -/
def handlerStep (s : State) (i choice : Nat) : Result :=
  match s.handlers[i]? with
  | none => .next s
  | some h =>
    match h.stepChoice choice with
    | none => .next s
    | some (st, acts) =>
      let t := setHandlerState s i st
      match s.run with
      | .running =>
        match applyActions t t.pc acts with
        | (u, _, some c) => raise c u
        | (u, _, none) => .next u
      | .halted => .next (applyAfterHalt t acts)
      | .faulted _ => .next t

/-! ### The schedule -/

/-- The next event of the fair schedule: the first tick, a tick while a latency runs or after the end
of the run, else the oldest request that can be performed, else a busy handler, else a tick. DESIGN CHOICE,
one legal and fair schedule (log 5). -/
def defaultEvent (s : State) : Event :=
  if s.started = false ∨ s.run ≠ .running ∨ 0 < s.stall then .tick
  else match s.inflight.find? (admissible s) with
    | some r => .memory r.id
    | none =>
      match s.handlers.findIdx? Handler.isBusy with
      | some i => .handler i 0
      | none => .tick

/-- The next event after the agenda (log 4). -/
def laterEvent (s : State) : Event :=
  match s.later with
  | .fair => defaultEvent s
  | .repeating events => events.headD (defaultEvent s)
  | .free seed position => Config.freeEvent seed position

/-- The next event: the head of the agenda, else what goes on after it, free values (R11, R14,
log 4). -/
def nextEvent (s : State) : Event := s.agenda.headD (laterEvent s)

/-- What goes on after the agenda once one event of it has been taken. -/
def Later.advance : Later → Later
  | .fair => .fair
  | .repeating events => .repeating (events.drop 1 ++ events.take 1)
  | .free seed position => .free seed (position + 1)

/-- The state in which that event happens: the schedule has moved on. -/
def popEvent (s : State) : State :=
  (s.setLater (if s.agenda = [] then s.later.advance else s.later)).setAgenda s.agenda.tail

end Sys2Proof.Machine
end

