-- ==== Sys2Proof/Machine/Alu.lean ====
section
/-! DEFINITION. The nine ALU instructions (spec 42_alu.md). Results are computed as exact integers
and narrowed once to 64 bits (R106). -/

namespace Sys2Proof.Machine

/-- The low 64 bits of an exact result (R106, D19). -/
def narrow (x : Int) : Word := BitVec.ofInt 64 x

/-- The end of every ALU instruction: write the destination, set the latency counter, advance
(R105). -/
def finishAlu (op d : Byte) (v : Word) (s : State) : Except FatalCondition State := do
  let t ← writeReg s d v
  .ok (advancePc (t.setStall (latency s.params op)))

/-- The two-source template: source 1, source 2, the operation, then the destination (R105, R140).
The operation sees the program counter, which a fatal condition records. -/
def alu2 (op : Byte) (f : Word → Word → Word → Except FatalCondition Word) (s1 s2 d : Byte)
    (s : State) : Result :=
  commit s do
    let a ← readReg s s1
    let b ← readReg s s2
    let v ← f s.pc a b
    finishAlu op d v s

/-- The one-source template of NOT (R105, D20). -/
def alu1 (op : Byte) (f : Word → Word) (s1 d : Byte) (s : State) : Result :=
  commit s do
    let a ← readReg s s1
    finishAlu op d (f a) s

/-- The two checks DIV and MOD share, before the exact operation `f` on integers (R106, R110, R111). -/
def dividing (f : Int → Int → Int) (pc a b : Word) : Except FatalCondition Word :=
  if b.toInt = 0 then .error (.divideByZero pc)
  else if a.toInt = -2 ^ 63 ∧ b.toInt = -1 then .error (.divideOverflow pc)
  else .ok (narrow (f a.toInt b.toInt))

/-- The quotient rounded toward zero: `sign(a) * sign(b) * floor(|a| / |b|)` (R106, log 14). -/
def truncDiv (a b : Int) : Int := a.sign * b.sign * (a.natAbs / b.natAbs : Nat)

/-- The remainder of `truncDiv` (R106). -/
def truncRem (a b : Int) : Int := a - truncDiv a b * b

/-- ADD (R107). -/
def execAdd (s1 s2 d : Byte) (s : State) : Result :=
  alu2 Opcode.add (fun _ a b => .ok (narrow (a.toInt + b.toInt))) s1 s2 d s

/-- SUB: source 1 is the minuend (R108). -/
def execSub (s1 s2 d : Byte) (s : State) : Result :=
  alu2 Opcode.sub (fun _ a b => .ok (narrow (a.toInt - b.toInt))) s1 s2 d s

/-- MUL: the low 64 bits of the exact product (R109). -/
def execMul (s1 s2 d : Byte) (s : State) : Result :=
  alu2 Opcode.mul (fun _ a b => .ok (narrow (a.toInt * b.toInt))) s1 s2 d s

/-- DIV (R110). -/
def execDiv (s1 s2 d : Byte) (s : State) : Result :=
  alu2 Opcode.div (dividing truncDiv) s1 s2 d s

/-- MOD (R111). -/
def execMod (s1 s2 d : Byte) (s : State) : Result :=
  alu2 Opcode.mod (dividing truncRem) s1 s2 d s

/-- AND (R112). -/
def execAnd (s1 s2 d : Byte) (s : State) : Result :=
  alu2 Opcode.and (fun _ a b => .ok (a &&& b)) s1 s2 d s

/-- OR (R113). -/
def execOr (s1 s2 d : Byte) (s : State) : Result :=
  alu2 Opcode.or (fun _ a b => .ok (a ||| b)) s1 s2 d s

/-- XOR (R114). -/
def execXor (s1 s2 d : Byte) (s : State) : Result :=
  alu2 Opcode.xor (fun _ a b => .ok (a ^^^ b)) s1 s2 d s

/-- NOT (R115). -/
def execNot (s1 d : Byte) (s : State) : Result := alu1 Opcode.not (fun a => ~~~a) s1 d s

end Sys2Proof.Machine
end

