-- ==== Sys2Proof/Machine/Control.lean ====
section
/-! DEFINITION. NOOP and HALT, which the state machine itself implements (spec 40_fetch_execute.md). -/

namespace Sys2Proof.Machine

/-- NOOP (R87). -/
def execNoop (s : State) : Result := .next (advancePc s)

/-- HALT: the program counter advances, then the run is Halted (R88, D25). -/
def execHalt (s : State) : Result := .next ((advancePc s).setRun .halted)

end Sys2Proof.Machine
end

