-- ==== Sys2Proof/Machine/Flags.lean ====
section
/-! DEFINITION. The hardware has no flags (R21). What other machines read from flags, the conditional
jumps compute from the register they test (R118, D26): these are the three conditions. -/

namespace Sys2Proof.Machine

/-- JZERO's condition (R119). -/
def condZero (v : Word) : Bool := v.toInt == 0

/-- JNEG's condition, a signed comparison (R120). -/
def condNegative (v : Word) : Bool := decide (v.toInt < 0)

/-- JPOS's condition: strictly positive, signed (R121). -/
def condPositive (v : Word) : Bool := decide (0 < v.toInt)

end Sys2Proof.Machine
end

