-- ==== Sys2Proof/Machine/Operands.lean ====
section
/-! DEFINITION. The operand forms (R65, R103): register indirect and absolute addresses, and the
jump displacement. Register operands are `readReg` and `writeReg` (Ops.lean); there is no other
immediate. -/

namespace Sys2Proof.Machine

/-- Register indirect: the whole register value, read as an unsigned address (R97, R99, R103). -/
def registerAddress (s : State) (a : Byte) : Except FatalCondition Word := readReg s a

/-- Absolute: the 16-bit field zero-extended, in bytes and not scaled (R65, D8). -/
def absoluteAddress (addr : Half) : Word := addr.setWidth 64

/-- The byte displacement of a jump: the signed 16-bit word count times 4 (R65). -/
def jumpDisplacement (off : Half) : Word := off.signExtend 64 * 4

/-- The target of a taken jump at `pc`, modulo 2^64 (R118). -/
def jumpTarget (pc : Word) (off : Half) : Word := pc + jumpDisplacement off

end Sys2Proof.Machine
end

