-- ==== Sys2Proof/Machine/Jump.lean ====
section
/-! DEFINITION. The three conditional jumps (spec 43_jump.md). A jump writes no register and sets no
latency; a bad target faults at the next fetch, not here (R118, R122). -/

namespace Sys2Proof.Machine

/-- The common rule: read the test register, then take the target or the next address (R118). -/
def jumpIf (cond : Word → Bool) (t : Byte) (off : Half) (s : State) : Result :=
  commit s do
    let v ← readReg s t
    .ok (s.setPc (if cond v then jumpTarget s.pc off else nextPc s.pc))

/-- JZERO (R119). -/
def execJzero (t : Byte) (off : Half) (s : State) : Result := jumpIf condZero t off s

/-- JNEG (R120). -/
def execJneg (t : Byte) (off : Half) (s : State) : Result := jumpIf condNegative t off s

/-- JPOS (R121). -/
def execJpos (t : Byte) (off : Half) (s : State) : Result := jumpIf condPositive t off s

end Sys2Proof.Machine
end

