-- ==== Sys2Proof/Machine/LoadStore.lean ====
section
/-! DEFINITION. LD, LDA, ST, STA: each issues one request and advances (spec 41_load_store.md). What
the request does when the memory interface performs it is `performRequest` (Agents.lean). -/

namespace Sys2Proof.Machine

/-- A load from `addr` into `d`: issue, then advance (R97, R98). -/
def loadFrom (s : State) (addr : Except FatalCondition Word) (d : Byte) : Result :=
  commit s do
    let a ← addr
    let t ← issueLoad s a d
    .ok (advancePc t)

/-- A store of register `v` at `addr`: issue, then advance (R99, R100). -/
def storeTo (s : State) (addr : Except FatalCondition Word) (v : Byte) : Result :=
  commit s do
    let a ← addr
    let t ← issueStore s a v
    .ok (advancePc t)

/-- LD (R97). -/
def execLd (a d : Byte) (s : State) : Result := loadFrom s (registerAddress s a) d

/-- LDA (R98). -/
def execLda (addr : Half) (d : Byte) (s : State) : Result :=
  loadFrom s (.ok (absoluteAddress addr)) d

/-- ST: the address register is read before the bound and the value register (R99, R140). -/
def execSt (v a : Byte) (s : State) : Result := storeTo s (registerAddress s a) v

/-- STA (R100). -/
def execSta (addr : Half) (v : Byte) (s : State) : Result :=
  storeTo s (.ok (absoluteAddress addr)) v

end Sys2Proof.Machine
end

