-- ==== Sys2Proof/Machine/Dispatch.lean ====
section
/-! DEFINITION. The dispatcher: one arm per instruction, each one call of its meaning (R76, R82). -/

namespace Sys2Proof.Machine

/-- The dispatch of a decoded instruction, with its program counter advance (R76, R82, R83). -/
def exec (i : Instr) (s : State) : Host.Outcome State Fault Refusal :=
  match i with
  | .noop => Sys2Proof.Machine.execNoop s
  | .ld a d => Sys2Proof.Machine.execLd a d s
  | .lda addr d => Sys2Proof.Machine.execLda addr d s
  | .st v a => Sys2Proof.Machine.execSt v a s
  | .sta addr v => Sys2Proof.Machine.execSta addr v s
  | .add s1 s2 d => Sys2Proof.Machine.execAdd s1 s2 d s
  | .sub s1 s2 d => Sys2Proof.Machine.execSub s1 s2 d s
  | .mul s1 s2 d => Sys2Proof.Machine.execMul s1 s2 d s
  | .div s1 s2 d => Sys2Proof.Machine.execDiv s1 s2 d s
  | .mod s1 s2 d => Sys2Proof.Machine.execMod s1 s2 d s
  | .and s1 s2 d => Sys2Proof.Machine.execAnd s1 s2 d s
  | .or s1 s2 d => Sys2Proof.Machine.execOr s1 s2 d s
  | .xor s1 s2 d => Sys2Proof.Machine.execXor s1 s2 d s
  | .not s1 d => Sys2Proof.Machine.execNot s1 d s
  | .jzero t off => Sys2Proof.Machine.execJzero t off s
  | .jneg t off => Sys2Proof.Machine.execJneg t off s
  | .jpos t off => Sys2Proof.Machine.execJpos t off s
  | .halt => Sys2Proof.Machine.execHalt s
  | .custom w => Sys2Proof.Machine.execCustom w s

end Sys2Proof.Machine
end

