-- ==== Sys2Proof/Machine/Fetch.lean ====
section
/-! DEFINITION. The image: its padding (R40), the fetch of a word (R41), and placing a word in it,
which stands for loading a program from outside the machine (log 18). Fetch never reads data memory
(R55, R80). -/

namespace Sys2Proof.Machine

/-- The zero padding that makes a body of `n` bytes a multiple of 8 long (R40). -/
def padding (n : Nat) : Nat := (8 - n % 8) % 8

/-- The body holds the two segments and their padding: `bodyLen = dataLength + instLength + pad`
(R40). -/
def Image.wf (img : Image) : Bool :=
  img.body.length == img.dataLength + img.instLength + padding (img.dataLength + img.instLength)

/-- Image byte `a`. -/
def Image.byte (img : Image) (a : Nat) : Byte := img.body.getD a 0

/-- ImgRead32 (R41): the bound MAXADDR first, then the body. -/
def imgRead32 (s : State) (a : Word) : Except FatalCondition InstrWord :=
  if ¬ a < s.params.maxAddr then .error (.fetchOutOfRange a)
  else if ¬ (4 ≤ s.image.body.length ∧ a.toNat ≤ s.image.body.length - 4) then
    .error (.fetchOutOfRange a)
  else
    let k := a.toNat
    .ok (wordOfBytes (s.image.byte k) (s.image.byte (k + 1)) (s.image.byte (k + 2))
      (s.image.byte (k + 3)))

/-- The image with the word at address `a`, the instruction segment extended to cover it (log 18). -/
def Image.place (img : Image) (a : Nat) (w : InstrWord) : Image :=
  let front := (img.body ++ List.replicate (a - img.body.length) 0).take a
  let raw := front ++ bytesOfWord w ++ img.body.drop (a + 4)
  { dataLength := img.dataLength
    instLength := max img.instLength (a + 4 - img.dataLength)
    body := raw ++ List.replicate (padding raw.length) 0 }

/-- The state with every fetch gate open (R77) and a tick next, so that the next step fetches at
`pc`: running, no latency, nothing pending or in flight, no handler busy (log 18). -/
def openGates (s : State) : State :=
  { s with
    run := .running
    stall := 0
    pending := []
    inflight := []
    handlers := s.handlers.map fun h => { h with state := { h.state with busy := false } }
    agenda := .tick :: s.agenda }

/-- The state with `pc` below MAXADDR, both as they are where they already are so (log 18). -/
def reachablePc (s : State) : State :=
  if s.pc < s.params.maxAddr then s
  else if s.pc = BitVec.allOnes 64 then
    { s with pc := 0, params := { s.params with maxAddr := BitVec.allOnes 64 } }
  else { s with params := { s.params with maxAddr := BitVec.allOnes 64 } }

/-- The state whose next step fetches this word (log 18). -/
def placeFetchWord (s : State) (w : InstrWord) : State :=
  let t := reachablePc (openGates s)
  { t with image := t.image.place t.pc.toNat w }

end Sys2Proof.Machine
end

