-- ==== Sys2Proof/Machine/Tick.lean ====
section
/-! DEFINITION. The tick of the core (spec 40_fetch_execute.md) and the step of whichever agent the
schedule names. -/

namespace Sys2Proof.Machine

/-- `advance()` (R76): nothing after the end of the run (R85, R86); else a latency tick (R78); else
a tick stalled on memory or on a handler (R79); else fetch, decode and dispatch (R80 to R83). -/
def advance (s : State) : Result :=
  match s.run with
  | .halted => .next s
  | .faulted _ => .next s
  | .running =>
    if 0 < s.stall then .next (s.setStall (s.stall - 1))
    else if hasPending s || anyBusy s then .next s
    else match imgRead32 s s.pc with
      | .error c => raise c s
      | .ok w => exec (decodeWord w) s

/-- A step of an agent beside the core: enabled only once the first tick has been taken, for the spec's
agents step between ticks, a handler busy from the start stalls the first tick, and the registers are
as they were launched until then (R11, R135, R155, R157, log 23). Before it, no move (log 8). -/
def afterFirstTick (s : State) (r : Result) : Result := if s.started then r else .next s

/-- One event (R11). -/
def act (s : State) : Event → Result
  | .tick => advance (s.setStarted true)
  | .memory id => afterFirstTick s (memoryStep s id)
  | .stray id data => afterFirstTick s (strayCompletion s id data)
  | .handler i choice => afterFirstTick s (handlerStep s i choice)

end Sys2Proof.Machine
end

