-- ==== Sys2Proof/Machine/Step.lean ====
section
/-! DEFINITION. One step of the machine: the agent the schedule names takes its step (R11). -/

namespace Sys2Proof.Machine

/-- The step (R11): the next event, in the state whose schedule has moved on. -/
def step (s : State) : Host.Outcome State Fault Refusal := act (popEvent s) (nextEvent s)

/-- The state whose next step fetches and runs the word of these bits, its higher bits 0. It stands
for loading the program from outside the machine (log 18). -/
def State.withFetchWord (s : State) (nbits w : Nat) : State :=
  placeFetchWord s (tableWord nbits w)

end Sys2Proof.Machine
end

