-- ==== Sys2Proof/Machine/Launch.lean ====
section
/-! DEFINITION. Construction of a core from its launch parameters (R7, R153), the host's preload
(R32), and the outputs the host reads (R157). -/

namespace Sys2Proof.Machine

/-- The launch parameters (R7). -/
structure Launch where
  /-- IMAGE: the bytes of the program file (R40). -/
  file : List Byte
  /-- N. -/
  n : Nat
  /-- MAXADDR and LAT. -/
  params : Params
  /-- HANDLERS, each in its own initial state (R31). -/
  handlers : List Handler
  /-- INIT_MEM: data memory outside the image (R37). -/
  initMem : Memory
  /-- INIT_REGS: the host's preloads, in order (R32). -/
  initRegs : List (Byte × Word)
  /-- The first events of the schedule, a parameter (R11, I4, I5, log 4). -/
  agenda : List Event
  /-- What the schedule goes on with, likewise. -/
  later : Later
deriving DecidableEq, Repr

/-- The number these bytes spell, little-endian (R38). -/
def leNat : List Byte → Nat
  | [] => 0
  | b :: bs => b.toNat + 256 * leNat bs

/-- The 8-byte header field at this offset of the file (R40). -/
def headerField (file : List Byte) (offset : Nat) : Nat := leNat ((file.drop offset).take 8)

/-- Loading the image (R40, R42): `version` is not read, bytes after the segments are ignored and the
padding is zero whatever the file holds there (D30). -/
def loadImage (file : List Byte) : Except FatalCondition Image :=
  let dataLength := headerField file 8
  let instLength := headerField file 16
  let used := dataLength + instLength
  if file.length < 24 + used then .error (.imageMalformed dataLength instLength file.length)
  else .ok {
    dataLength := dataLength
    instLength := instLength
    body := (file.drop 24).take used ++ List.replicate (padding used) 0 }

/-- `preload(i, v)` (R32, R157): register `i` of 2 to N-1, before the first tick. -/
def preload (s : State) (i : Byte) (v : Word) : Except Refusal State :=
  if 2 ≤ i.toNat ∧ i.toNat < s.n then .ok (s.setRegs (s.regs.set (i.toNat - 2) v))
  else .error (.preloadOutOfRange i)

/-- The preloads in order. -/
def preloadAll (s : State) : List (Byte × Word) → Except Refusal State
  | [] => .ok s
  | (i, v) :: rest => do
    let t ← preload s i v
    preloadAll t rest

/-- The core before its image is loaded: steps 1 and 2 of R153. What the later steps set is as in an
empty core (log 12). The schedule is the launch's (R11, log 4); identifiers count from 0 (log 6). -/
def allocated (l : Launch) : State where
  regs := List.replicate (l.n - 2) 0
  pc := 0
  stall := 0
  run := .running
  pending := []
  handlers := []
  image := Image.empty
  params := l.params
  mem := l.initMem
  inflight := []
  nextId := 0
  agenda := l.agenda
  later := l.later
  started := false

/-- Steps 3 to 5 of R153 with the loaded image: data memory starts as the body over INIT_MEM (R37),
`pc` at `dataLength` (R154), the handlers in their order (R125). -/
def withImage (l : Launch) (img : Image) : State :=
  { allocated l with
    pc := BitVec.ofNat 64 img.dataLength
    image := img
    mem := l.initMem.setBytes 0 img.body
    handlers := l.handlers }

/-- The reset sequence (R153). A malformed image is fatal before the first tick (R42); a launch the
spec does not admit is refused (R7, R32, R125, log 13). -/
def construct (l : Launch) : Result :=
  if l.n < 2 then .refused (.registerCountBelowTwo l.n)
  else if ¬ (l.handlers.map Handler.ext).Nodup then .refused .extensionRegisteredTwice
  else match loadImage l.file with
    | .error c => raise c (allocated l)
    | .ok img =>
      match preloadAll (withImage l img) l.initRegs with
      | .error r => .refused r
      | .ok s => .next s

/-- The launch whose construction is `State.reset` (log 2). -/
def Launch.atReset : Launch where
  file := List.replicate 24 0
  n := 8
  params := Params.atReset
  handlers := []
  initMem := []
  initRegs := []
  agenda := []
  later := .fair

/-! ### Outputs (R157, log 19) -/

/-- `halted` (R89, R157). -/
def haltedOutput (s : State) : Bool := s.run == .halted

/-- `fault(code, info)` (R138, R157). -/
def faultOutput (s : State) : Option (Nat × FatalCondition) :=
  match s.run with
  | .faulted c => some (c.code, c)
  | .running => none
  | .halted => none

end Sys2Proof.Machine
end

