-- ==== Sys2Proof/Safety.lean ====
section
/-! DEFINITION. How a run ends (R163), which states a run passes through, and the invariants of the
machine (R34), in the terms the statements use. -/

namespace Sys2Proof.Machine

/-- The run has ended well (R163). -/
def State.EndedWell (s : State) : Prop := s.run = .halted

/-- The run has ended badly (R163). -/
def State.EndedBadly (s : State) : Prop := ∃ c, s.run = .faulted c

/-- A safe state: no fatal condition has been met (R136). -/
def State.Safe (s : State) : Prop := ¬ s.EndedBadly

/-- `t` is the state after some number of steps from `s`. -/
def Reaches (s t : State) : Prop := ∃ k, Sys2Proof.core.run k s = .next t

/-- The largest latency of an ALU opcode: the bound of `stall` (R26). -/
def maxAluLatency (p : Params) : Nat := (Opcode.alu.map (latency p)).foldr max 0

/-- The table is a finite map by rising identifier, and every identifier given out is below the next
one, so the next one is fresh (R22, R57). -/
abbrev State.PendingOk (s : State) : Prop :=
  (s.pending.Pairwise fun p q => p.1 < q.1) ∧ ∀ p ∈ s.pending, p.1 < s.nextId

/-- The requests in flight are distinct; each has its entry in the table, with a destination exactly
if it is a read (R93, R94); and its start address passed the bound (R43). -/
abbrev State.InflightOk (s : State) : Prop :=
  (s.inflight.Pairwise fun q r => q.id < r.id) ∧
  ∀ r ∈ s.inflight, r.addr < s.params.maxAddr ∧
    ∃ p ∈ s.pending, p.1 = r.id ∧ (p.2.isSome = true ↔ r.kind = .read)

/-- While the core runs, every entry of the table waits for a request in flight (R34, R101). -/
abbrev State.PendingWaits (s : State) : Prop :=
  s.run = .running → ∀ p ∈ s.pending, ∃ r ∈ s.inflight, r.id = p.1

/-- What every step keeps, from every state that has it: data memory is canonical, the image is as
its header says, the requests and their table agree, `stall` stays in its range, and a halted core
has nothing pending (R22, R26, R34, R40, R163). -/
abbrev State.Inv (s : State) : Prop :=
  s.mem.wf = true ∧ s.image.wf = true ∧ s.PendingOk ∧ s.InflightOk ∧ s.PendingWaits ∧
  s.stall ≤ maxAluLatency s.params ∧ (s.run = .halted → s.pending = [] ∧ s.stall = 0)

/-- The event is no delivery of a completion that performs no request: a host that keeps its duties
has no such move (R57, R156). -/
def DutifulEvent : Event → Prop
  | .stray _ _ => False
  | .tick => True
  | .memory _ => True
  | .handler _ _ => True

/-- No event the schedule will ever name is such a delivery. -/
def State.Dutiful (s : State) : Prop :=
  (∀ e ∈ s.agenda, DutifulEvent e) ∧
  match s.later with
  | .fair => True
  | .repeating events => ∀ e ∈ events, DutifulEvent e
  | .free seed position => ∀ k, position ≤ k → DutifulEvent (Config.freeEvent seed k)

/-- No handlers, so only fixed instructions run, and at most one request pending (R102). -/
abbrev State.FixedOnly (s : State) : Prop := s.handlers = [] ∧ s.pending.length ≤ 1

end Sys2Proof.Machine
end

