-- ==== Sys2Proof/WellFormed.lean ====
section
/-! DEFINITION. Well-formed instructions (R68, R70). The fields of the fixed formats are as wide as
their types, and no field value is invalid at the codec level (R59), so the one check is that a
custom word does not carry an opcode of the fixed table (R67). Whether a register index is below N
is the dispatcher's check at the time of use (R69, R82), not the codec's. -/

namespace Sys2Proof

/-- The opcode byte of a custom word lies outside the fixed table (R67). -/
def customOpcodeOk (w : InstrWord) : Bool := decide (byteOfWord w 0 ∉ Opcode.fixed)

/-- An instruction that is the decoding of its own encoding. -/
def Instr.wellFormed : Instr → Bool
  | .custom w => customOpcodeOk w
  | .noop | .halt => true
  | .ld _ _ | .lda _ _ | .st _ _ | .sta _ _ => true
  | .add _ _ _ | .sub _ _ _ | .mul _ _ _ | .div _ _ _ | .mod _ _ _ => true
  | .and _ _ _ | .or _ _ _ | .xor _ _ _ | .not _ _ => true
  | .jzero _ _ | .jneg _ _ | .jpos _ _ => true

end Sys2Proof
end

