-- ==== Sys2Proof/Certificates/Slice0/Obligations.lean ====
section
/-! DEFINITION. The statements for the provers, family by family in the spec's order. A next state is
written as an update of the state before, so everything the update does not name is unchanged: that
is the statement's frame. Free values (a handler's behaviour, the schedule, request identifiers, the
contents of memory) are universally quantified in every statement. -/

open Sys2Proof Sys2Proof.Machine

namespace Sys2Proof.Statements

/-- A register index a write accepts (R18). -/
abbrev Writable (s : State) (i : Byte) : Prop := 2 ≤ i.toNat ∧ i.toNat < s.n

/-- The state in which the next event happens: the agenda has lost its head, or, where it lists
nothing, what goes on after it has moved on (log 4, the model's own fields). -/
abbrev moved (s : State) : State :=
  { s with
    agenda := s.agenda.tail
    later := if s.agenda = [] then s.later.advance else s.later }

/-- The state in which a tick happens: the schedule has moved on and the first tick is past (log 23). -/
abbrev ticking (s : State) : State := { moved s with started := true }

/-- The state a raise leaves: only `run` differs (R138). -/
abbrev faultedWith (s : State) (c : FatalCondition) : State := { s with run := .faulted c }

/-- The state after issuing a request and advancing (R93, R94, R83). -/
abbrev issued (s : State) (addr : Word) (kind : RequestKind) (entry : Option Byte) : State :=
  { s with
    inflight := s.inflight ++ [{ id := s.nextId, addr := addr, kind := kind }]
    pending := s.pending.insert s.nextId entry
    nextId := s.nextId + 1
    pc := s.pc + 4 }

/-- Bytes 0 to 3 in the order of the word, as the spec's formulas shift them (R70). -/
abbrev shifted (b0 b1 b2 b3 : Byte) : InstrWord :=
  b0.setWidth 32 ||| b1.setWidth 32 <<< 8 ||| b2.setWidth 32 <<< 16 ||| b3.setWidth 32 <<< 24

/-- A 16-bit field of two bytes, low byte first (R62, R63). -/
abbrev half (lo hi : Byte) : Half := lo.setWidth 16 ||| hi.setWidth 16 <<< 8

/-- What a two-source ALU instruction `i` of opcode `op` does in every case: the word it decodes
from, the two reads in order, the operation's own fatal condition, the destination's check, and
else the result, the latency and the advance (R60, R105, R116, R140). -/
def AluEffect (i : Byte → Byte → Byte → Instr) (op : Byte)
    (fatal : Word → Word → Word → Option FatalCondition) (f : Word → Word → Word) : Prop :=
  (∀ s1 s2 d, decodeWord (wordOfBytes op s1 s2 d) = i s1 s2 d) ∧
  ∀ (s : State) (s1 s2 d : Byte),
    (∀ c, readReg s s1 = .error c → exec (i s1 s2 d) s = .next (faultedWith s c)) ∧
    (∀ a c, readReg s s1 = .ok a → readReg s s2 = .error c →
      exec (i s1 s2 d) s = .next (faultedWith s c)) ∧
    ∀ a b, readReg s s1 = .ok a → readReg s s2 = .ok b →
      (∀ c, fatal s.pc a b = some c → exec (i s1 s2 d) s = .next (faultedWith s c)) ∧
      (fatal s.pc a b = none →
        (d.toNat < 2 →
          exec (i s1 s2 d) s = .next (faultedWith s (.reservedRegisterWrite d s.pc))) ∧
        (s.n ≤ d.toNat →
          exec (i s1 s2 d) s = .next (faultedWith s (.registerIndexOutOfRange d s.pc))) ∧
        (Writable s d →
          exec (i s1 s2 d) s = .next { s with
            regs := s.regs.set (d.toNat - 2) (f a b)
            stall := latency s.params op
            pc := s.pc + 4 }))

/-- The fatal conditions of DIV and MOD (R106): a zero divisor, and the most negative dividend by
-1. -/
def divideFatal (pc a b : Word) : Option FatalCondition :=
  if b = 0 then some (.divideByZero pc)
  else if a = BitVec.intMin 64 ∧ b = -1 then some (.divideOverflow pc)
  else none

/-- What the load instruction `i` from `addr` into `d` has done when the memory interface performs
its request: the destination holds the 8 bytes, or the destination's index is fatal at that point,
with `pc` past the load and the entry gone (R95, R97, R98, R139). -/
def LoadCompletion (i : Instr) (addr : Word) (d : Byte) (s : State) : Prop :=
  s.run = .running → s.pending = [] → s.inflight = [] →
    addr.toNat + 8 ≤ s.params.maxAddr.toNat →
    ∃ t, exec i s = .next t ∧
      (Writable s d → memoryStep t s.nextId = .next { s with
        regs := s.regs.set (d.toNat - 2) (s.mem.read8 addr.toNat)
        nextId := s.nextId + 1
        pc := s.pc + 4 }) ∧
      (d.toNat < 2 → memoryStep t s.nextId = .next { s with
        run := .faulted (.reservedRegisterWrite d (s.pc + 4))
        nextId := s.nextId + 1
        pc := s.pc + 4 }) ∧
      (s.n ≤ d.toNat → memoryStep t s.nextId = .next { s with
        run := .faulted (.registerIndexOutOfRange d (s.pc + 4))
        nextId := s.nextId + 1
        pc := s.pc + 4 })

/-- What the store instruction `i` of the value `v` at `addr` has done when the memory interface
performs its request: the 8 bytes from `addr` on are those of the value, every other byte and every
register is as before (R38, R99, R100). -/
def StoreCompletion (i : Instr) (addr v : Word) (s : State) : Prop :=
  s.run = .running → s.pending = [] → s.inflight = [] → s.mem.wf = true →
    addr.toNat + 8 ≤ s.params.maxAddr.toNat →
    ∃ t m, exec i s = .next t ∧
      memoryStep t s.nextId = .next { s with
        mem := m
        nextId := s.nextId + 1
        pc := s.pc + 4 } ∧
      ∀ x, m.get x =
        if addr.toNat ≤ x ∧ x < addr.toNat + 8 then byteOf v (x - addr.toNat) else s.mem.get x

/-- What a conditional jump `i` of opcode `op` does in every case (R63, R118). -/
def JumpEffect (i : Byte → Half → Instr) (op : Byte) (cond : Word → Prop) : Prop :=
  (∀ t lo hi, decodeWord (wordOfBytes op t lo hi) = i t (half lo hi)) ∧
  ∀ (s : State) (t : Byte) (off : Half),
    (∀ c, readReg s t = .error c → exec (i t off) s = .next (faultedWith s c)) ∧
    ∀ v, readReg s t = .ok v →
      (cond v → exec (i t off) s = .next { s with
        pc := BitVec.ofInt 64 (s.pc.toNat + off.toInt * 4) }) ∧
      (¬ cond v → exec (i t off) s = .next { s with pc := s.pc + 4 })

/-- The core may fetch on this tick: all three stall conditions are clear (R77). -/
abbrev GatesOpen (s : State) : Prop :=
  s.run = .running ∧ s.stall = 0 ∧ s.pending = [] ∧ ∀ h ∈ s.handlers, h.state.busy = false

/-- Handler number `k` is the first in registration order that claims the opcode (R126). -/
abbrev FirstClaimant (s : State) (op : Byte) (k : Nat) (h : Handler) : Prop :=
  s.handlers[k]? = some h ∧ op ∈ h.claims ∧
  ∀ j, j < k → ∀ g, s.handlers[j]? = some g → op ∉ g.claims

/-- The state in which a claiming handler's actions start: its own state is already the new one
(R126). -/
abbrev executed (s : State) (k : Nat) (h : Handler) (r : Reply) : State :=
  { s with handlers := s.handlers.set k { h with state := r.state } }

/-- What the handler sees: the program counter and x[0 .. N-1] (R124), of a core with more than 256
registers the first 256 (D31, log 21). -/
abbrev viewOf (s : State) : CoreView := { pc := s.pc, regs := (s.pc :: 0 :: s.regs).take 256 }

end Sys2Proof.Statements

open Sys2Proof.Statements

/-! ### Encoding (30_encoding.md) -/

/-- R70: the encoder lays out every format as the spec's formulas do, zero in ignored fields, and
decoding the bytes of an encoded well-formed instruction gives it back, with the bytes after it. -/
def Obligations.DecodeEncodeRoundTrip : Prop :=
  (∀ op s1 s2 d, encodeR op s1 s2 d = shifted op s1 s2 d) ∧
  (∀ op addr r, encodeA op addr r =
    op.setWidth 32 ||| addr.setWidth 32 <<< 8 ||| r.setWidth 32 <<< 24) ∧
  (∀ op t off, encodeJ op t off =
    op.setWidth 32 ||| t.setWidth 32 <<< 8 ||| off.setWidth 32 <<< 16) ∧
  (∀ op, encodeN op = op.setWidth 32) ∧
  (∀ i : Instr, i.wellFormed = true → encode i &&& ~~~ usedBits i.opcode = 0) ∧
  ∀ (i : Instr) (rest : List Byte), i.wellFormed = true →
    decode (bytesOfWord (encode i) ++ rest) = .ok (i, rest)

/-- R71, R81: four bytes always decode, to a well-formed instruction, and leave the bytes after them;
fewer than four are refused by name. -/
def Obligations.DecodingIsTotal : Prop :=
  (∀ b0 b1 b2 b3 rest, ∃ i : Instr, i.wellFormed = true ∧
    decode (b0 :: b1 :: b2 :: b3 :: rest) = .ok (i, rest)) ∧
  ∀ bs : List Byte, bs.length < 4 → decode bs = .error (.truncated bs.length)

/-- R59: the codec's six fields of the word of four bytes. -/
def Obligations.CodecFields : Prop :=
  ∀ b0 b1 b2 b3 : Byte, fieldsOf (wordOfBytes b0 b1 b2 b3) =
    { opcode := b0, reg1 := b1, reg2 := b2, writeReg := b3
      jumpOffset16 := half b2 b3, absAddr16 := half b1 b2 }

/-- R69: two words with the same opcode that agree on the bits their format uses are the same
instruction, and what a custom word decodes to keeps all 32 bits. -/
def Obligations.IgnoredFieldsDoNotMatter : Prop :=
  ∀ v w : InstrWord, byteOfWord v 0 = byteOfWord w 0 →
    v &&& usedBits (byteOfWord v 0) = w &&& usedBits (byteOfWord v 0) →
    decodeWord v = decodeWord w

/-- R66, R67, R75: the opcode classes by number, and the fixed table is consulted first: a word is
custom exactly when its opcode is none of the table's numbers, and it is then handed on whole. -/
def Obligations.FixedTableDecodesFirst : Prop :=
  (∀ op : Byte, opClass op =
    if op = 0 then .noop
    else if op ∈ ([1, 2, 8, 9] : List Byte) then .loadStore
    else if op ∈ ([16, 17, 18, 19, 20, 32, 33, 34, 35] : List Byte) then .alu
    else if op ∈ ([129, 130, 131] : List Byte) then .jump
    else if op = 255 then .halt
    else .custom) ∧
  (∀ w v, decodeWord w = .custom v ↔ v = w ∧ opClass (byteOfWord w 0) = .custom) ∧
  ∀ w, (decodeWord w).opcode = byteOfWord w 0

/-- Words of spec/95_test_vectors.md (L1.3, L2.1, L2.5, L3) decode to the instructions they are given
for. -/
def Obligations.SpecWordsDecode : Prop :=
  decodeWord 0x04030210 = .add 2 3 4 ∧ decodeWord 0x02000002 = .lda 0 2 ∧
  decodeWord 0x00020308 = .st 3 2 ∧ decodeWord 0xFFF80581 = .jzero 5 0xFFF8 ∧
  decodeWord 0xFFFFFFFF = .halt ∧ decodeWord 0x00000000 = .noop ∧
  decodeWord 0x05EE0423 = .not 4 5 ∧ decodeWord 0x030002C8 = .custom 0x030002C8

/-! ### Registers (10_state.md) -/

/-- R16, R17: a register read in every state. -/
def Obligations.RegisterReadRule : Prop :=
  ∀ s : State,
    readReg s 0 = .ok s.pc ∧ readReg s 1 = .ok 0 ∧
    ∀ i : Byte, 2 ≤ i.toNat →
      (s.n ≤ i.toNat → readReg s i = .error (.registerIndexOutOfRange i s.pc)) ∧
      ∀ v, s.regs[i.toNat - 2]? = some v → readReg s i = .ok v

/-- R18: a register write in every state; registers 0 and 1 are never written. -/
def Obligations.RegisterWriteRule : Prop :=
  ∀ (s : State) (i : Byte) (v : Word),
    (i.toNat < 2 → writeReg s i v = .error (.reservedRegisterWrite i s.pc)) ∧
    (s.n ≤ i.toNat → writeReg s i v = .error (.registerIndexOutOfRange i s.pc)) ∧
    (Writable s i →
      writeReg s i v = .ok { s with regs := s.regs.set (i.toNat - 2) v })

/-- R17, R18: after a write that goes through, that register reads the value and every other index
reads as before, faults included. -/
def Obligations.WrittenRegisterReadsBack : Prop :=
  ∀ (s t : State) (i : Byte) (v : Word), writeReg s i v = .ok t →
    readReg t i = .ok v ∧ ∀ j, j ≠ i → readReg t j = readReg s j

/-- R22: the pending-request table is a finite map. -/
def Obligations.PendingTableIsAMap : Prop :=
  ∀ (p : Pending), (p.Pairwise fun q r => q.1 < r.1) → ∀ (id : Nat) (e : Option Byte),
    ((p.insert id e).Pairwise fun q r => q.1 < r.1) ∧
    ((p.erase id).Pairwise fun q r => q.1 < r.1) ∧
    ∀ k, (p.insert id e).find k = (if k = id then some e else p.find k) ∧
      (p.erase id).find k = (if k = id then none else p.find k)

/-! ### Data memory and the image (20_memory.md) -/

/-- R38: an 8-byte read is little-endian, and a value's bytes are numbered from its low end. -/
def Obligations.DataIsLittleEndian : Prop :=
  (∀ (m : Memory) (a : Nat), (m.read8 a).toNat =
    (m.get a).toNat + 256 * ((m.get (a + 1)).toNat + 256 * ((m.get (a + 2)).toNat +
      256 * ((m.get (a + 3)).toNat + 256 * ((m.get (a + 4)).toNat + 256 * ((m.get (a + 5)).toNat +
        256 * ((m.get (a + 6)).toNat + 256 * (m.get (a + 7)).toNat))))))) ∧
  ∀ (v : Word) (k : Nat), (byteOf v k).toNat = v.toNat / 256 ^ k % 256

/-- R38, R49: an 8-byte read after an 8-byte write at the same address returns the value, and a read
that shares no byte with it returns what it did before. -/
def Obligations.ReadAfterWrite : Prop :=
  ∀ (m : Memory) (a b : Nat) (v : Word), m.wf = true →
    (m.write8 a v).read8 a = v ∧
    (b + 8 ≤ a ∨ a + 8 ≤ b → (m.write8 a v).read8 b = m.read8 b)

/-- The model's memory keeps its canonical form, and equal contents are equal memories (log 3). -/
def Obligations.MemoryIsCanonical : Prop :=
  (∀ (m : Memory) (a : Nat) (v : Word), m.wf = true → a + 8 ≤ 2 ^ 64 → (m.write8 a v).wf = true) ∧
  ∀ m n : Memory, m.wf = true → n.wf = true → (∀ a, m.get a = n.get a) → m = n

/-- R41: a fetch reads four image bytes, and is fatal at or above MAXADDR and outside the body. -/
def Obligations.FetchRule : Prop :=
  ∀ (s : State) (a : Word),
    (¬ a < s.params.maxAddr → imgRead32 s a = .error (.fetchOutOfRange a)) ∧
    (s.image.body.length < a.toNat + 4 → imgRead32 s a = .error (.fetchOutOfRange a)) ∧
    ∀ b0 b1 b2 b3, a < s.params.maxAddr →
      s.image.body[a.toNat]? = some b0 → s.image.body[a.toNat + 1]? = some b1 →
      s.image.body[a.toNat + 2]? = some b2 → s.image.body[a.toNat + 3]? = some b3 →
      imgRead32 s a = .ok (shifted b0 b1 b2 b3)

/-- R44: performing an in-flight request whose eight bytes lie below MAXADDR, while the core runs:
it leaves the requests in flight and its entry leaves the table; a read delivers the 8 bytes to
`onCompletion`'s register write, and a write changes exactly its 8 bytes. It is the step whose next
event names it, once the first tick has been taken; before, that event is no move (log 23). -/
def Obligations.PerformedRequest : Prop :=
  (∀ (s : State) (id : Nat), nextEvent s = .memory id →
    (s.started = true → step s = memoryStep (moved s) id) ∧
    (s.started = false → step s = .next (moved s))) ∧
  ∀ (s : State) (r : Request) (e : Option Byte), s.run = .running → s.mem.wf = true →
    (s.inflight.find? fun q => q.id == r.id) = some r → s.pending.find r.id = some e →
    r.addr.toNat + 8 ≤ s.params.maxAddr.toNat →
    ∃ left : State, left = { s with
        inflight := s.inflight.filter fun q => q.id != r.id
        pending := s.pending.erase r.id } ∧
      (r.kind = .read → ∀ d, e = some d →
        (Writable s d → memoryStep s r.id = .next { left with
          regs := s.regs.set (d.toNat - 2) (s.mem.read8 r.addr.toNat) }) ∧
        (d.toNat < 2 →
          memoryStep s r.id = .next (faultedWith left (.reservedRegisterWrite d s.pc))) ∧
        (s.n ≤ d.toNat →
          memoryStep s r.id = .next (faultedWith left (.registerIndexOutOfRange d s.pc)))) ∧
      ∀ v, r.kind = .write v → e = none →
        ∃ m, memoryStep s r.id = .next { left with mem := m } ∧
          ∀ x, m.get x =
            if r.addr.toNat ≤ x ∧ x < r.addr.toNat + 8 then byteOf v (x - r.addr.toNat)
            else s.mem.get x

/-- R43: with no handlers, a request that passed the start-address check but crosses MAXADDR is never
performed: however the schedule goes on, the core neither ends nor moves. (This stuck reading is the
spec's decision D12. A completion for an unknown identifier, a protocol violation, is kept out of the
schedule.) -/
def Obligations.CrossingRequestStallsForEver : Prop :=
  ∀ (s : State) (r : Request), s.Inv → s.FixedOnly → s.run = .running → r ∈ s.inflight →
    s.params.maxAddr.toNat < r.addr.toNat + 8 →
    s.Dutiful →
    ∀ k t, Sys2Proof.core.run k s = .next t →
      t.run = .running ∧ t.pc = s.pc ∧ t.regs = s.regs ∧ t.mem = s.mem ∧ r ∈ t.inflight

/-! ### The state machine (40_fetch_execute.md) -/

/-- R76, R78, R79, R85, R86: what a tick does before it can fetch. That the next event is a tick, that
the schedule moves on and that the first tick is past are the model's own (log 4, log 23). -/
def Obligations.TickTransitionRule : Prop :=
  ∀ s : State, nextEvent s = .tick →
    (s.run ≠ .running → step s = .next (ticking s)) ∧
    (s.run = .running → 0 < s.stall →
      step s = .next { ticking s with stall := s.stall - 1 }) ∧
    (s.run = .running → s.stall = 0 → s.pending ≠ [] ∨ (∃ h ∈ s.handlers, h.state.busy = true) →
      step s = .next (ticking s))

/-- R76, R80 to R82: a tick with every gate open runs the instruction that the image bytes at `pc`
decode to, in the state whose schedule has moved on. -/
def Obligations.StepRunsTheDecodedInstruction : Prop :=
  ∀ (s : State) (i : Instr) (rest : List Byte), nextEvent s = .tick → GatesOpen s →
    s.pc < s.params.maxAddr → decode (s.image.body.drop s.pc.toNat) = .ok (i, rest) →
    step s = exec i (ticking s)

/-- R41, R80: a tick with every gate open faults, changing nothing else, when the four bytes at `pc`
are not all below MAXADDR's bound and inside the body. -/
def Obligations.FetchFaultEndsTheRun : Prop :=
  ∀ s : State, nextEvent s = .tick → GatesOpen s →
    ¬ s.pc < s.params.maxAddr ∨ s.image.body.length < s.pc.toNat + 4 →
    step s = .next (faultedWith (ticking s) (.fetchOutOfRange s.pc))

/-- R87: NOOP, whatever its bytes 1 to 3. -/
def Obligations.NoopEffect : Prop :=
  (∀ b1 b2 b3, decodeWord (wordOfBytes 0 b1 b2 b3) = .noop) ∧
  ∀ s : State, exec .noop s = .next { s with pc := s.pc + 4 }

/-- R88: HALT, whatever its bytes 1 to 3. -/
def Obligations.HaltEffect : Prop :=
  (∀ b1 b2 b3, decodeWord (wordOfBytes 255 b1 b2 b3) = .halt) ∧
  ∀ s : State, exec .halt s = .next { s with pc := s.pc + 4, run := .halted }

/-- R78, R84: a core whose latency counter is L makes exactly L ticks that change nothing but the
counter, and its next tick is then free to fetch. -/
def Obligations.LatencyStallsFetch : Prop :=
  ∀ (s : State) (rest : List Event), s.run = .running →
    s.agenda = List.replicate s.stall .tick ++ rest →
    Sys2Proof.core.run s.stall s = .next { s with
      stall := 0
      agenda := rest
      started := s.started || decide (0 < s.stall) }

/-- R90: after a load or store is issued, however many ticks pass before its completion is
delivered, nothing in the core changes but that the first tick is past (log 23): no instruction is
fetched. R165: where the schedule is ticks alone, the completion never comes and the core stalls for
ever, with no fault. -/
def Obligations.NoFetchWhileRequestPending : Prop :=
  ∀ (s : State) (k : Nat), s.run = .running → s.stall = 0 → s.pending ≠ [] →
    (∀ rest : List Event, s.agenda = List.replicate k .tick ++ rest →
      Sys2Proof.core.run k s = .next { s with
        agenda := rest
        started := s.started || decide (0 < k) }) ∧
    (s.agenda = [] → s.later = .repeating [.tick] →
      Sys2Proof.core.run k s = .next { s with started := s.started || decide (0 < k) })

/-- R84: no instruction outside the ALU class changes the latency counter. -/
def Obligations.OnlyAluSetsLatency : Prop :=
  ∀ (i : Instr) (s t : State), opClass i.opcode ≠ .alu → exec i s = .next t → t.stall = s.stall

/-! ### Loads and stores (41_load_store.md) -/

/-- R97: LD at issue and, performed (R44), at completion. The request's identifier is the counter of
log 6, the model's choice. -/
def Obligations.LdEffect : Prop :=
  (∀ a b2 d, decodeWord (wordOfBytes 1 a b2 d) = .ld a d) ∧
  ∀ (s : State) (a d : Byte),
    (∀ c, readReg s a = .error c → exec (.ld a d) s = .next (faultedWith s c)) ∧
    ∀ addr, readReg s a = .ok addr →
      (¬ addr < s.params.maxAddr →
        exec (.ld a d) s = .next (faultedWith s (.addressOutOfRange addr s.pc))) ∧
      (addr < s.params.maxAddr → exec (.ld a d) s = .next (issued s addr .read (some d))) ∧
      LoadCompletion (.ld a d) addr d s

/-- R98: LDA at issue and, performed (R44), at completion. The identifier is log 6's. -/
def Obligations.LdaEffect : Prop :=
  (∀ lo hi d, decodeWord (wordOfBytes 2 lo hi d) = .lda (half lo hi) d) ∧
  ∀ (s : State) (addr16 : Half) (d : Byte) (addr : Word), addr = BitVec.ofNat 64 addr16.toNat →
    (¬ addr < s.params.maxAddr →
      exec (.lda addr16 d) s = .next (faultedWith s (.addressOutOfRange addr s.pc))) ∧
    (addr < s.params.maxAddr → exec (.lda addr16 d) s = .next (issued s addr .read (some d))) ∧
    LoadCompletion (.lda addr16 d) addr d s

/-- R99: ST at issue, its checks in order, and, performed (R44), at completion. The value is sampled at
issue. The identifier is log 6's. -/
def Obligations.StEffect : Prop :=
  (∀ v a b3, decodeWord (wordOfBytes 8 v a b3) = .st v a) ∧
  ∀ (s : State) (v a : Byte),
    (∀ c, readReg s a = .error c → exec (.st v a) s = .next (faultedWith s c)) ∧
    ∀ addr, readReg s a = .ok addr →
      (¬ addr < s.params.maxAddr →
        exec (.st v a) s = .next (faultedWith s (.addressOutOfRange addr s.pc))) ∧
      (∀ c, addr < s.params.maxAddr → readReg s v = .error c →
        exec (.st v a) s = .next (faultedWith s c)) ∧
      ∀ x, readReg s v = .ok x →
        (addr < s.params.maxAddr → exec (.st v a) s = .next (issued s addr (.write x) none)) ∧
        StoreCompletion (.st v a) addr x s

/-- R100: STA at issue, its checks in order, and, performed (R44), at completion. The identifier is
log 6's. -/
def Obligations.StaEffect : Prop :=
  (∀ lo hi v, decodeWord (wordOfBytes 9 lo hi v) = .sta (half lo hi) v) ∧
  ∀ (s : State) (addr16 : Half) (v : Byte) (addr : Word), addr = BitVec.ofNat 64 addr16.toNat →
    (¬ addr < s.params.maxAddr →
      exec (.sta addr16 v) s = .next (faultedWith s (.addressOutOfRange addr s.pc))) ∧
    (∀ c, addr < s.params.maxAddr → readReg s v = .error c →
      exec (.sta addr16 v) s = .next (faultedWith s c)) ∧
    ∀ x, readReg s v = .ok x →
      (addr < s.params.maxAddr → exec (.sta addr16 v) s = .next (issued s addr (.write x) none)) ∧
      StoreCompletion (.sta addr16 v) addr x s

/-- R95, R104: a completion. -/
def Obligations.CompletionRule : Prop :=
  ∀ (s : State) (id : Nat) (data : Word),
    (s.run ≠ .running → onCompletion s id data = .next s) ∧
    (s.run = .running →
      (s.pending.find id = none →
        onCompletion s id data = .next (faultedWith s (.unknownRequestId id s.pc))) ∧
      (s.pending.find id = some none →
        onCompletion s id data = .next { s with pending := s.pending.erase id }) ∧
      ∀ d, s.pending.find id = some (some d) →
        (Writable s d → onCompletion s id data = .next { s with
          pending := s.pending.erase id
          regs := s.regs.set (d.toNat - 2) data }) ∧
        (d.toNat < 2 → onCompletion s id data = .next { s with
          pending := s.pending.erase id
          run := .faulted (.reservedRegisterWrite d s.pc) }) ∧
        (s.n ≤ d.toNat → onCompletion s id data = .next { s with
          pending := s.pending.erase id
          run := .faulted (.registerIndexOutOfRange d s.pc) }))

/-- R57, R95: the memory interface delivering a completion for an identifier that is not pending is
fatal while the core runs, and nothing else changes; before the first tick it is no move. The delivery
as an event is log 9's, its gate log 23's. -/
def Obligations.StrayCompletionIsFatal : Prop :=
  ∀ (s : State) (id : Nat) (data : Word), nextEvent s = .stray id data → s.run = .running →
    s.pending.find id = none →
    (s.started = true → step s = .next (faultedWith (moved s) (.unknownRequestId id s.pc))) ∧
    (s.started = false → step s = .next (moved s))

/-! ### ALU (42_alu.md) -/

/-- R107 to R109: ADD, SUB and MUL, modulo 2^64. -/
def Obligations.AddSubMulEffect : Prop :=
  AluEffect .add 16 (fun _ _ _ => none) (fun a b => a + b) ∧
  AluEffect .sub 17 (fun _ _ _ => none) (fun a b => a - b) ∧
  AluEffect .mul 18 (fun _ _ _ => none) (fun a b => a * b)

/-- R106, R110, R111: DIV and MOD, truncating, with their two fatal conditions. Truncation is what the
spec marks as general knowledge (G1, log 14). -/
def Obligations.DivModEffect : Prop :=
  AluEffect .div 19 divideFatal (fun a b => BitVec.ofInt 64 (a.toInt.tdiv b.toInt)) ∧
  AluEffect .mod 20 divideFatal (fun a b => BitVec.ofInt 64 (a.toInt.tmod b.toInt))

/-- R106: where DIV and MOD complete, quotient and remainder, read signed, are exact: the dividend is
quotient times divisor plus remainder, the remainder is smaller than the divisor in magnitude, and
it is zero or has the dividend's sign. Truncation is what the spec marks as general knowledge (G1,
log 14). -/
def Obligations.DivisionLaw : Prop :=
  ∀ (a b : Word), divideFatal 0 a b = none →
    ∃ q r : Word, dividing truncDiv 0 a b = .ok q ∧ dividing truncRem 0 a b = .ok r ∧
      a.toInt = q.toInt * b.toInt + r.toInt ∧ r.toInt.natAbs < b.toInt.natAbs ∧
      (r.toInt = 0 ∨ r.toInt.sign = a.toInt.sign)

/-- R112 to R114: AND, OR and XOR, bit by bit. -/
def Obligations.AndOrXorEffect : Prop :=
  AluEffect .and 32 (fun _ _ _ => none) (fun a b => BitVec.ofFnLE fun i => a[i] && b[i]) ∧
  AluEffect .or 33 (fun _ _ _ => none) (fun a b => BitVec.ofFnLE fun i => a[i] || b[i]) ∧
  AluEffect .xor 34 (fun _ _ _ => none) (fun a b => BitVec.ofFnLE fun i => a[i] ^^ b[i])

/-- R115: NOT, whatever byte 2 of its word; the result is also `-x - 1`. -/
def Obligations.NotEffect : Prop :=
  (∀ s1 b2 d, decodeWord (wordOfBytes 35 s1 b2 d) = .not s1 d) ∧
  ∀ (s : State) (s1 d : Byte),
    (∀ c, readReg s s1 = .error c → exec (.not s1 d) s = .next (faultedWith s c)) ∧
    ∀ a, readReg s s1 = .ok a →
      (d.toNat < 2 → exec (.not s1 d) s = .next (faultedWith s (.reservedRegisterWrite d s.pc))) ∧
      (s.n ≤ d.toNat →
        exec (.not s1 d) s = .next (faultedWith s (.registerIndexOutOfRange d s.pc))) ∧
      (Writable s d → exec (.not s1 d) s = .next { s with
        regs := s.regs.set (d.toNat - 2) (-a - 1)
        stall := latency s.params 35
        pc := s.pc + 4 })

/-! ### Jumps (43_jump.md) -/

/-- R118 to R121: the three conditional jumps; the target is the jump's own address plus four times
the signed offset, modulo 2^64. -/
def Obligations.ConditionalJumpEffect : Prop :=
  JumpEffect .jzero 129 (fun v => v = 0) ∧
  JumpEffect .jneg 130 (fun v => v.toInt < 0) ∧
  JumpEffect .jpos 131 (fun v => 0 < v.toInt)

/-- R122: a jump whose register can be read never faults on its target, writes nothing but `pc`, and
keeps the alignment of `pc` modulo 4. (The spec marks R122 as derived.) -/
def Obligations.JumpNeverFaultsOnItsTarget : Prop :=
  ∀ (s : State) (t : Byte) (off : Half) (v : Word), readReg s t = .ok v →
    ∀ i ∈ ([.jzero t off, .jneg t off, .jpos t off] : List Instr),
      ∃ p : Word, exec i s = .next { s with pc := p } ∧ p.toNat % 4 = s.pc.toNat % 4

/-! ### Custom instructions (44_custom.md) -/

/-- R126 to R129: the first claiming handler executes. Its state is stored first; if none of its
actions raises, status 0 sets `pc` to the reference plus 4, and any other status is fatal with the
effects kept. The view the handler answers for shows at most the first 256 registers: the model's
choice, log 21. -/
def Obligations.ClaimedCustomEffect : Prop :=
  ∀ (s t : State) (w : InstrWord) (k : Nat) (h : Handler) (r : Reply) (pcH : Word),
    FirstClaimant s (byteOfWord w 0) k h → r = h.execute w (viewOf s) →
    applyActions (executed s k h r) s.pc r.actions = (t, pcH, none) →
    (r.status = 0 → exec (.custom w) s = .next { t with pc := pcH + 4 }) ∧
    (r.status ≠ 0 →
      exec (.custom w) s = .next (faultedWith t (.unknownInstruction w s.pc (some r.status))))

/-- R126, R127, R138: an action that raises ends the custom instruction, the effects before it kept. The
view the handler answers for shows at most the first 256 registers: the model's choice, log 21. -/
def Obligations.CustomActionFault : Prop :=
  ∀ (s t : State) (w : InstrWord) (k : Nat) (h : Handler) (r : Reply) (pcH : Word)
    (c : FatalCondition),
    FirstClaimant s (byteOfWord w 0) k h → r = h.execute w (viewOf s) →
    applyActions (executed s k h r) s.pc r.actions = (t, pcH, some c) →
    exec (.custom w) s = .next (faultedWith t c)

/-- R134: an opcode no handler claims is fatal and changes nothing else. -/
def Obligations.UnclaimedCustomIsFatal : Prop :=
  ∀ (s : State) (w : InstrWord), (∀ h ∈ s.handlers, byteOfWord w 0 ∉ h.claims) →
    exec (.custom w) s = .next (faultedWith s (.unknownInstruction w s.pc none))

/-- R127, R132, R133: a handler's actions are the core's own checked operations, in order; the first
that raises stops them. -/
def Obligations.HandlerActionsAreChecked : Prop :=
  ∀ (s : State) (p : Word) (acts : List Action),
    applyActions s p [] = (s, p, none) ∧
    (∀ q, applyActions s p (.setPC q :: acts) = applyActions s q acts) ∧
    (∀ i v, readReg s i = .ok v → applyActions s p (.read i :: acts) = applyActions s p acts) ∧
    (∀ i c, readReg s i = .error c → applyActions s p (.read i :: acts) = (s, p, some c)) ∧
    (∀ i v t, writeReg s i v = .ok t →
      applyActions s p (.write i v :: acts) = applyActions t p acts) ∧
    (∀ i v c, writeReg s i v = .error c →
      applyActions s p (.write i v :: acts) = (s, p, some c)) ∧
    (∀ a d t, issueLoad s a d = .ok t →
      applyActions s p (.load a d :: acts) = applyActions t p acts) ∧
    (∀ a d c, issueLoad s a d = .error c →
      applyActions s p (.load a d :: acts) = (s, p, some c)) ∧
    (∀ a r t, issueStore s a r = .ok t →
      applyActions s p (.store a r :: acts) = applyActions t p acts) ∧
    (∀ a r c, issueStore s a r = .error c →
      applyActions s p (.store a r :: acts) = (s, p, some c))

/-- R25, R127, R133: whatever a handler's actions are, they leave the program counter, the latency
counter, the run state, the image, data memory, the launch parameters, the handlers and the number
of registers as they were. -/
def Obligations.HandlerActionsFrame : Prop :=
  ∀ (s t : State) (p q : Word) (acts : List Action) (c : Option FatalCondition),
    applyActions s p acts = (t, q, c) →
    t.pc = s.pc ∧ t.stall = s.stall ∧ t.run = s.run ∧ t.image = s.image ∧ t.mem = s.mem ∧
    t.params = s.params ∧ t.handlers = s.handlers ∧ t.regs.length = s.regs.length

/-- R131: an internal step of a handler while the core runs. SetPC is ignored: `pc` stays. Which steps
a handler has is its launch data or a free value (log 7). It is the step whose next event names it,
once the first tick has been taken; before, that event is no move, so that the registers stay as
launched and a handler that is busy stalls the first tick (R135, R155, log 23). -/
def Obligations.HandlerStepEffect : Prop :=
  (∀ (s : State) (k choice : Nat), nextEvent s = .handler k choice →
    (s.started = true → step s = handlerStep (moved s) k choice) ∧
    (s.started = false → step s = .next (moved s))) ∧
  ∀ (s t : State) (k choice : Nat) (h : Handler) (st : HandlerState) (acts : List Action)
    (q : Word) (c : Option FatalCondition), s.run = .running → s.handlers[k]? = some h →
    h.stepChoice choice = some (st, acts) →
    applyActions { s with handlers := s.handlers.set k { h with state := st } } s.pc acts
      = (t, q, c) →
    t.pc = s.pc ∧
    (c = none → handlerStep s k choice = .next t) ∧
    ∀ f, c = some f → handlerStep s k choice = .next (faultedWith t f)

/-! ### Fatal conditions and the end of a run (60_exceptions.md, 70_reset_and_hazards.md) -/

/-- R138: entering Faulted changes `run` alone, and a tick, a completion or the memory interface
never clears it. -/
def Obligations.FaultIsTerminal : Prop :=
  (∀ (c : FatalCondition) (s : State), raise c s = .next { s with run := .faulted c }) ∧
  ∀ (s t : State) (c : FatalCondition), s.run = .faulted c → step s = .next t → t.run = .faulted c

/-- R139: a fixed instruction that faults has changed nothing but `run`. (The spec marks R139 as
derived.) -/
def Obligations.FixedInstructionFaultsArePrecise : Prop :=
  ∀ (i : Instr) (s t : State) (c : FatalCondition), (∀ w, i ≠ .custom w) →
    s.run = .running → exec i s = .next t → t.run = .faulted c → t = { s with run := .faulted c }

/-- R34, R85, R86, R104, R150, and log 11 for handler steps, the model's reading: after the end of a
run the run state, the program counter, the latency counter, the table and the image never change, nor,
after a fault, a register. -/
def Obligations.EndedRunNeverChanges : Prop :=
  ∀ (s t : State), s.run ≠ .running → step s = .next t →
    t.run = s.run ∧ t.pc = s.pc ∧ t.stall = s.stall ∧ t.pending = s.pending ∧ t.image = s.image ∧
    (s.run ≠ .halted → t.regs = s.regs)

/-- No step stops outside the spec's own states: every state has a next one (log 8, log 10). -/
def Obligations.StepAlwaysAnswersNext : Prop := ∀ s : State, ∃ t, step s = .next t

/-- R25, R27, R29, R55: no step changes the image, the launch parameters, the number of registers,
or the registry's order and what its handlers are; only handler states change. -/
def Obligations.LaunchConfigurationNeverChanges : Prop :=
  ∀ s t : State, step s = .next t →
    t.image = s.image ∧ t.params = s.params ∧ t.n = s.n ∧
    (t.handlers.map fun h => (h.ext, h.claims, h.execs, h.steps)) =
      s.handlers.map fun h => (h.ext, h.claims, h.execs, h.steps)

/-- R35, R52: only the memory interface performing a write changes data memory, and then only the
eight bytes of that request. -/
def Obligations.OnlyPerformedWritesChangeMemory : Prop :=
  ∀ s t : State, s.mem.wf = true → step s = .next t →
    t.mem = s.mem ∨
    ∃ r v, r ∈ s.inflight ∧ nextEvent s = .memory r.id ∧ r.kind = .write v ∧
      r.addr.toNat + 8 ≤ s.params.maxAddr.toNat ∧
      ∀ x, t.mem.get x =
        if r.addr.toNat ≤ x ∧ x < r.addr.toNat + 8 then byteOf v (x - r.addr.toNat)
        else s.mem.get x

/-- R19: the register file is written only by ALU results, load completions and custom handlers: a
dispatch of any other class leaves it, and so does any event that is not one of those three. -/
def Obligations.RegisterWriters : Prop :=
  (∀ (i : Instr) (s t : State), opClass i.opcode ≠ .alu → (∀ w, i ≠ .custom w) →
    exec i s = .next t → t.regs = s.regs) ∧
  ∀ (s t : State), step s = .next t → t.regs ≠ s.regs →
    (nextEvent s = .tick ∧ ∃ w, imgRead32 s s.pc = .ok w ∧
      (opClass (byteOfWord w 0) = .alu ∨ opClass (byteOfWord w 0) = .custom)) ∨
    (∃ r, r ∈ s.inflight ∧ nextEvent s = .memory r.id ∧
      ∃ d, s.pending.find r.id = some (some d)) ∨
    ∃ k choice, nextEvent s = .handler k choice

/-- R20: with no handlers, a program counter that is a multiple of 4 stays one. (The spec marks this
sentence of R20 as derived.) -/
def Obligations.PcStaysAligned : Prop :=
  ∀ s t : State, s.handlers = [] → step s = .next t → s.pc.toNat % 4 = 0 → t.pc.toNat % 4 = 0

/-! ### Reset and launch -/

/-- R31, with the launch parameters of log 2 (the model's choice: N = 8 is the spec's default,
MAXADDR, LAT, the empty registry and the empty image are log 2's): registers 2 to 7 read 0,
register 0 reads `dataLength`, and nothing is pending. -/
def Obligations.ResetValues : Prop :=
  (∀ i : Byte, 2 ≤ i.toNat → i.toNat < 8 → readReg State.reset i = .ok 0) ∧
  readReg State.reset 0 = .ok (BitVec.ofNat 64 State.reset.image.dataLength) ∧
  readReg State.reset 1 = .ok 0 ∧
  State.reset.pc = BitVec.ofNat 64 State.reset.image.dataLength ∧ State.reset.stall = 0 ∧
  State.reset.run = .running ∧ State.reset.pending = [] ∧
  construct Launch.atReset = .next State.reset

/-- R31, R37, R40, R153, R154: a launch the spec admits, with no preload, starts with zeroed
registers, `pc` at `dataLength`, nothing pending, running, the body as fetched image and as the
first bytes of data memory, INIT_MEM elsewhere, the launch's schedule (log 4), and no tick taken
(log 23). -/
def Obligations.ConstructStartsTheCore : Prop :=
  ∀ (l : Launch) (version dataLength instLength : List Byte) (body rest : List Byte),
    2 ≤ l.n → (l.handlers.map Handler.ext).Nodup → l.initRegs = [] → l.initMem.wf = true →
    version.length = 8 → dataLength.length = 8 → instLength.length = 8 →
    body.length = leNat dataLength + leNat instLength →
    l.file = version ++ dataLength ++ instLength ++ body ++ rest →
    ∃ s, construct l = .next s ∧ s.n = l.n ∧ (∀ v ∈ s.regs, v = 0) ∧
      s.pc = BitVec.ofNat 64 (leNat dataLength) ∧ s.stall = 0 ∧ s.run = .running ∧
      s.pending = [] ∧ s.inflight = [] ∧ s.handlers = l.handlers ∧ s.params = l.params ∧
      s.agenda = l.agenda ∧ s.later = l.later ∧ s.started = false ∧
      s.image.dataLength = leNat dataLength ∧ s.image.instLength = leNat instLength ∧
      s.image.body = body ++ List.replicate ((8 - body.length % 8) % 8) 0 ∧
      ∀ a, s.mem.get a =
        if a < s.image.body.length then s.image.body.getD a 0 else l.initMem.get a

/-- R42: a file shorter than its header's lengths is fatal before the first tick. (For a file that holds
its 24-byte header; log 12.) -/
def Obligations.ShortImageIsMalformed : Prop :=
  ∀ (l : Launch) (version dataLength instLength : List Byte) (rest : List Byte),
    2 ≤ l.n → (l.handlers.map Handler.ext).Nodup →
    version.length = 8 → dataLength.length = 8 → instLength.length = 8 →
    l.file = version ++ dataLength ++ instLength ++ rest →
    rest.length < leNat dataLength + leNat instLength →
    ∃ s, construct l = .next s ∧ s.run =
      .faulted (.imageMalformed (leNat dataLength) (leNat instLength) (24 + rest.length))

/-- R32: the host may preload registers 2 to N-1 and no other. -/
def Obligations.PreloadRule : Prop :=
  ∀ (s : State) (i : Byte) (v : Word),
    (Writable s i →
      preload s i v = .ok { s with regs := s.regs.set (i.toNat - 2) v }) ∧
    (¬ Writable s i → preload s i v = .error (.preloadOutOfRange i))

/-! ### Invariants and whole-machine rules -/

/-- The invariant holds after reset. -/
def Obligations.ResetHasInvariant : Prop := State.reset.Inv

/-- The invariant holds after every launch that starts the core, from any canonical INIT_MEM. -/
def Obligations.ConstructHasInvariant : Prop :=
  ∀ (l : Launch) (s : State), l.initMem.wf = true → l.file.length + 8 ≤ 2 ^ 64 →
    construct l = .next s → s.Inv

/-- R22, R26, R34, R57, R101, R163: every step, whoever takes it, keeps the invariant: canonical
memory, an image as its header says, a table that agrees with the requests in flight, a latency
counter in its range, and nothing pending once halted. -/
def Obligations.StepKeepsInvariant : Prop := ∀ s t : State, s.Inv → step s = .next t → t.Inv

/-- R49, R102: while only fixed instructions run, at most one request is pending. (The spec marks both
sentences as derived.) -/
def Obligations.FixedInstructionsKeepOneRequest : Prop :=
  ∀ s t : State, s.FixedOnly → step s = .next t → t.FixedOnly

/-- R14, R162: with only fixed instructions, the registers, the program counter and data memory at a
good end of the run are the same for every latency table and every completion schedule. (The spec
marks the sentence of R162 as derived.) -/
def Obligations.ScheduleAndLatencyDoNotMatter : Prop :=
  ∀ (s₁ s₂ t₁ t₂ : State) (k₁ k₂ : Nat), s₁.Inv → s₁.FixedOnly →
    s₂ = { s₁ with
      agenda := s₂.agenda
      later := s₂.later
      stall := s₂.stall
      params := { s₁.params with lat := s₂.params.lat } } →
    Sys2Proof.core.run k₁ s₁ = .next t₁ → Sys2Proof.core.run k₂ s₂ = .next t₂ →
    t₁.run = .halted → t₂.run = .halted →
    t₁.regs = t₂.regs ∧ t₁.pc = t₂.pc ∧ t₁.mem = t₂.mem
end

