-- ==== Sys2Proof/Laws/Memory.lean ====
section
/-! SUPPORT. The laws of data memory: every operation keeps the canonical form, a byte read after a
write, the eight bytes of a value, and equal contents are equal memories. -/

namespace Sys2Proof.Machine

/-- The canonical form, as the facts a proof uses. -/
theorem Memory.wf_cons {x : Nat} {c : Byte} {m : Memory} :
    Memory.wf ((x, c) :: m) = true ↔
      (∀ p ∈ m, x < p.1) ∧ x < 2 ^ 64 ∧ c ≠ initByte ∧ m.wf = true := by
  simp only [Memory.wf, List.pairwise_cons, List.all_cons, Bool.and_eq_true, decide_eq_true_eq,
    bne_iff_ne]
  tauto

theorem Memory.wf_nil : Memory.wf [] = true := rfl

/-- Addresses strictly rising: the part of the canonical form the reads rest on. -/
abbrev Memory.Rising (m : Memory) : Prop := m.Pairwise fun p q => p.1 < q.1

theorem Memory.rising_of_wf {m : Memory} (h : m.wf = true) : m.Rising := by
  simp only [Memory.wf, Bool.and_eq_true, decide_eq_true_eq] at h
  exact h.1

/-- An address below every listed one is not listed. -/
theorem Memory.get_of_lt {m : Memory} {a : Nat} (h : ∀ p ∈ m, a < p.1) : m.get a = initByte := by
  induction m with
  | nil => rfl
  | cons p m ih =>
    have hp := h p (by simp)
    rw [Memory.get, if_neg (by omega)]
    exact ih fun q hq => h q (by simp [hq])

theorem Memory.get_cons {m : Memory} {a : Nat} (b : Byte) (h : ∀ p ∈ m, a < p.1) (x : Nat) :
    (Memory.cons a b m).get x = if x = a then b else m.get x := by
  unfold Memory.cons
  split
  · next hb =>
    split
    · next hx => rw [hx, Memory.get_of_lt h, hb]
    · rfl
  · rw [Memory.get]
    by_cases hx : x = a
    · simp [hx]
    · rw [if_neg (fun h => hx h.symm), if_neg hx]

/-- A byte read after a byte write (R38). -/
theorem Memory.get_set {m : Memory} (hm : m.Rising) (a : Nat) (b : Byte) (x : Nat) :
    (m.set a b).get x = if x = a then b else m.get x := by
  induction m with
  | nil => exact Memory.get_cons b (by simp) x
  | cons p m ih =>
    obtain ⟨y, c⟩ := p
    obtain ⟨hlt, hw⟩ := List.pairwise_cons.1 hm
    rw [Memory.set]
    split
    · next hay =>
      refine Memory.get_cons b ?_ x
      intro p hp
      rcases List.mem_cons.1 hp with rfl | hp
      · exact hay
      · exact lt_trans hay (hlt p hp)
    split
    · next _ hay =>
      subst hay
      rw [Memory.get_cons b hlt x, Memory.get]
      by_cases hx : x = a
      · simp [hx]
      · rw [if_neg hx, if_neg hx, if_neg (fun h => hx h.symm)]
    · next _ hne =>
      rw [Memory.get, Memory.get, ih hw]
      by_cases hx : y = x
      · rw [if_pos hx, if_pos hx, if_neg (by omega)]
      · rw [if_neg hx, if_neg hx]

/-- Every listed address after a write was listed before or is the written one. -/
theorem Memory.mem_set {m : Memory} {a : Nat} {b : Byte} {p : Host.Cell} (h : p ∈ m.set a b) :
    p ∈ m ∨ p = (a, b) := by
  have cons_mem : ∀ {n : Memory}, p ∈ Memory.cons a b n → p ∈ n ∨ p = (a, b) := by
    intro n hn
    unfold Memory.cons at hn
    split at hn
    · exact .inl hn
    · rcases List.mem_cons.1 hn with rfl | hn
      · exact .inr rfl
      · exact .inl hn
  induction m with
  | nil => exact cons_mem h
  | cons q m ih =>
    obtain ⟨y, c⟩ := q
    rw [Memory.set] at h
    split at h
    · exact cons_mem h
    split at h
    · rcases cons_mem h with h | h
      · exact .inl (List.mem_cons_of_mem _ h)
      · exact .inr h
    · rcases List.mem_cons.1 h with rfl | h
      · exact .inl List.mem_cons_self
      · rcases ih h with h | h
        · exact .inl (List.mem_cons_of_mem _ h)
        · exact .inr h

/-- A byte write keeps the addresses rising. -/
theorem Memory.rising_set {m : Memory} (hm : m.Rising) (a : Nat) (b : Byte) : (m.set a b).Rising := by
  have cons_rising : ∀ {n : Memory}, n.Rising → (∀ p ∈ n, a < p.1) → (Memory.cons a b n).Rising := by
    intro n hn h
    unfold Memory.cons
    split
    · exact hn
    · exact List.pairwise_cons.2 ⟨h, hn⟩
  induction m with
  | nil => exact cons_rising List.Pairwise.nil (by simp)
  | cons p m ih =>
    obtain ⟨y, c⟩ := p
    obtain ⟨hlt, hw⟩ := List.pairwise_cons.1 hm
    rw [Memory.set]
    split
    · next hay =>
      refine cons_rising hm fun p hp => ?_
      rcases List.mem_cons.1 hp with rfl | hp
      · exact hay
      · exact lt_trans hay (hlt p hp)
    split
    · next _ hay => exact cons_rising hw (hay ▸ hlt)
    · next h1 h2 =>
      refine List.pairwise_cons.2 ⟨fun p hp => ?_, ih hw⟩
      rcases Memory.mem_set hp with hp | rfl
      · exact hlt p hp
      · show y < a
        omega

/-- A byte write keeps the canonical form. -/
theorem Memory.wf_set {m : Memory} (hm : m.wf = true) {a : Nat} (ha : a < 2 ^ 64) (b : Byte) :
    (m.set a b).wf = true := by
  have cells : ∀ p ∈ m.set a b, p.1 < 2 ^ 64 ∧ p.2 ≠ initByte := by
    have old : ∀ p ∈ m, p.1 < 2 ^ 64 ∧ p.2 ≠ initByte := by
      simp only [Memory.wf, Bool.and_eq_true, List.all_eq_true, decide_eq_true_eq, bne_iff_ne] at hm
      exact fun p hp => hm.2 p hp
    have cons_ok : ∀ {n : Memory}, (∀ p ∈ n, p.1 < 2 ^ 64 ∧ p.2 ≠ initByte) →
        ∀ p ∈ Memory.cons a b n, p.1 < 2 ^ 64 ∧ p.2 ≠ initByte := by
      intro n hn p hp
      unfold Memory.cons at hp
      split at hp
      · exact hn p hp
      · next hb =>
        rcases List.mem_cons.1 hp with rfl | hp
        · exact ⟨ha, hb⟩
        · exact hn p hp
    clear hm
    induction m with
    | nil => exact cons_ok old
    | cons q m ih =>
      obtain ⟨y, c⟩ := q
      have tail : ∀ p ∈ m, p.1 < 2 ^ 64 ∧ p.2 ≠ initByte :=
        fun p hp => old p (List.mem_cons_of_mem _ hp)
      rw [Memory.set]
      split
      · exact cons_ok old
      split
      · exact cons_ok tail
      · intro p hp
        rcases List.mem_cons.1 hp with rfl | hp
        · exact old _ List.mem_cons_self
        · exact ih tail p hp
  simp only [Memory.wf, Bool.and_eq_true, List.all_eq_true, decide_eq_true_eq, bne_iff_ne]
  exact ⟨Memory.rising_set (Memory.rising_of_wf hm) a b, cells⟩

/-- Writing bytes keeps the canonical form. -/
theorem Memory.wf_setBytes {m : Memory} (hm : m.wf = true) (bs : List Byte) (a : Nat)
    (ha : a + bs.length ≤ 2 ^ 64) : (m.setBytes a bs).wf = true := by
  induction bs generalizing m a with
  | nil => exact hm
  | cons b bs ih =>
    rw [List.length_cons] at ha
    exact ih (Memory.wf_set hm (by omega) b) (a + 1) (by omega)

/-- A byte read after writing bytes: the written one in their range, else the one before. -/
theorem Memory.get_setBytes {m : Memory} (hm : m.Rising) (bs : List Byte) (a x : Nat) :
    (m.setBytes a bs).get x =
      if a ≤ x ∧ x < a + bs.length then bs.getD (x - a) 0 else m.get x := by
  induction bs generalizing m a with
  | nil => rw [if_neg (by simp)]; rfl
  | cons b bs ih =>
    rw [Memory.setBytes, ih (Memory.rising_set hm a b), Memory.get_set hm, List.length_cons]
    by_cases h1 : x = a
    · subst h1
      rw [if_neg (by omega), if_pos rfl, if_pos (by omega)]
      simp
    by_cases h2 : a + 1 ≤ x ∧ x < a + 1 + bs.length
    · rw [if_pos h2, if_pos (by omega), show x - a = (x - (a + 1)) + 1 by omega]
      simp
    · rw [if_neg h2, if_neg h1, if_neg (by omega)]

/-! ### Eight-byte accesses -/

theorem length_bytesOf (v : Word) : (bytesOf v).length = 8 := rfl

theorem getD_bytesOf (v : Word) {k : Nat} (hk : k < 8) : (bytesOf v).getD k 0 = byteOf v k := by
  interval_cases k <;> rfl

/-- A byte read after an 8-byte write (R38): byte `x - a` of the value inside, the old byte outside. -/
theorem Memory.get_write8 {m : Memory} (hm : m.Rising) (a : Nat) (v : Word) (x : Nat) :
    (m.write8 a v).get x = if a ≤ x ∧ x < a + 8 then byteOf v (x - a) else m.get x := by
  rw [Memory.write8, Memory.get_setBytes hm, length_bytesOf]
  split
  · rw [getD_bytesOf v (by omega)]
  · rfl

/-- An 8-byte write below 2^64 keeps the canonical form. -/
theorem Memory.wf_write8 {m : Memory} (hm : m.wf = true) {a : Nat} (ha : a + 8 ≤ 2 ^ 64) (v : Word) :
    (m.write8 a v).wf = true := Memory.wf_setBytes hm _ a ha

/-- The number an 8-byte read returns: the bytes, little-endian (R38). -/
theorem Memory.toNat_read8 (m : Memory) (a : Nat) : (m.read8 a).toNat =
    (m.get a).toNat + 256 * ((m.get (a + 1)).toNat + 256 * ((m.get (a + 2)).toNat +
      256 * ((m.get (a + 3)).toNat + 256 * ((m.get (a + 4)).toNat + 256 * ((m.get (a + 5)).toNat +
        256 * ((m.get (a + 6)).toNat + 256 * (m.get (a + 7)).toNat)))))) := by
  have or_add : ∀ (x y i : Nat), x < 2 ^ i → x ||| y * 2 ^ i = x + y * 2 ^ i := by
    intro x y i hx
    rw [Nat.or_comm, Nat.mul_comm, ← Nat.two_pow_add_eq_or_of_lt hx, Nat.add_comm]
  have h := fun k => (m.get (a + k)).isLt
  have h0 := (m.get a).isLt
  have h1 := h 1; have h2 := h 2; have h3 := h 3; have h4 := h 4
  have h5 := h 5; have h6 := h 6; have h7 := h 7
  clear h
  simp only [Memory.read8, BitVec.toNat_or, BitVec.toNat_shiftLeft, BitVec.toNat_setWidth,
    Nat.shiftLeft_eq]
  generalize (m.get a).toNat = x0 at *
  generalize (m.get (a + 1)).toNat = x1 at *
  generalize (m.get (a + 2)).toNat = x2 at *
  generalize (m.get (a + 3)).toNat = x3 at *
  generalize (m.get (a + 4)).toNat = x4 at *
  generalize (m.get (a + 5)).toNat = x5 at *
  generalize (m.get (a + 6)).toNat = x6 at *
  generalize (m.get (a + 7)).toNat = x7 at *
  norm_num only at h0 h1 h2 h3 h4 h5 h6 h7
  repeat rw [Nat.mod_eq_of_lt (by omega)]
  rw [or_add _ _ 8 (by omega), or_add _ _ 16 (by omega), or_add _ _ 24 (by omega),
    or_add _ _ 32 (by omega), or_add _ _ 40 (by omega), or_add _ _ 48 (by omega),
    or_add _ _ 56 (by omega)]
  omega

/-- Byte `k` of a value as a number (R38). -/
theorem toNat_byteOf (v : Word) (k : Nat) : (byteOf v k).toNat = v.toNat / 256 ^ k % 256 := by
  simp only [byteOf, BitVec.extractLsb'_toNat, Nat.shiftRight_eq_div_pow]
  rw [show (256 : Nat) = 2 ^ 8 from rfl, ← Nat.pow_mul]

/-- A value is the number of its eight bytes. -/
theorem toNat_of_bytes (v : Word) : v.toNat =
    (byteOf v 0).toNat + 256 * ((byteOf v 1).toNat + 256 * ((byteOf v 2).toNat +
      256 * ((byteOf v 3).toNat + 256 * ((byteOf v 4).toNat + 256 * ((byteOf v 5).toNat +
        256 * ((byteOf v 6).toNat + 256 * (byteOf v 7).toNat)))))) := by
  simp only [toNat_byteOf]
  have := v.isLt
  omega

/-- An 8-byte read after an 8-byte write at the same address (R38). -/
theorem Memory.read8_write8 {m : Memory} (hm : m.Rising) (a : Nat) (v : Word) :
    (m.write8 a v).read8 a = v := by
  apply BitVec.eq_of_toNat_eq
  rw [Memory.toNat_read8, toNat_of_bytes v]
  have h : ∀ k, k < 8 → (m.write8 a v).get (a + k) = byteOf v k := by
    intro k hk
    rw [Memory.get_write8 hm, if_pos (by omega), Nat.add_sub_cancel_left]
  have h0 := h 0 (by omega)
  rw [Nat.add_zero] at h0
  rw [h0, h 1 (by omega), h 2 (by omega), h 3 (by omega), h 4 (by omega), h 5 (by omega),
    h 6 (by omega), h 7 (by omega)]

/-- An 8-byte read depends only on its eight bytes. -/
theorem Memory.read8_congr {m n : Memory} {a : Nat} (h : ∀ x, a ≤ x → x < a + 8 → m.get x = n.get x) :
    m.read8 a = n.read8 a := by
  unfold Memory.read8
  rw [h a (by omega) (by omega), h (a + 1) (by omega) (by omega), h (a + 2) (by omega) (by omega),
    h (a + 3) (by omega) (by omega), h (a + 4) (by omega) (by omega),
    h (a + 5) (by omega) (by omega), h (a + 6) (by omega) (by omega),
    h (a + 7) (by omega) (by omega)]

end Sys2Proof.Machine
end

