-- ==== Sys2Proof/Laws/Pending.lean ====
section
/-! SUPPORT. The pending-request table as a finite map (R22): keys of an insertion and of a deletion,
what is found after them, and that both keep the identifiers rising. -/

namespace Sys2Proof.Machine

/-- Identifiers strictly rising: the table's canonical form. -/
abbrev Pending.Rising (p : Pending) : Prop := p.Pairwise fun q r => q.1 < r.1

theorem Pending.mem_insert {p : Pending} {id : Nat} {e : Option Byte} {q : Nat × Option Byte}
    (h : q ∈ p.insert id e) : q = (id, e) ∨ q ∈ p := by
  induction p with
  | nil => exact .inl (List.mem_singleton.1 h)
  | cons r p ih =>
    obtain ⟨k, f⟩ := r
    rw [Pending.insert] at h
    split at h
    · exact List.mem_cons.1 h
    split at h
    · rcases List.mem_cons.1 h with h | h
      · exact .inl h
      · exact .inr (List.mem_cons_of_mem _ h)
    · rcases List.mem_cons.1 h with rfl | h
      · exact .inr List.mem_cons_self
      · rcases ih h with h | h
        · exact .inl h
        · exact .inr (List.mem_cons_of_mem _ h)

/-- An entry under an identifier above every other goes to the end. -/
theorem Pending.insert_fresh {p : Pending} {id : Nat} (h : ∀ q ∈ p, q.1 < id) (e : Option Byte) :
    p.insert id e = p ++ [(id, e)] := by
  induction p with
  | nil => rfl
  | cons r p ih =>
    obtain ⟨k, f⟩ := r
    have hk : k < id := h (k, f) List.mem_cons_self
    rw [Pending.insert, if_neg (by omega), if_neg (by omega),
      ih fun q hq => h q (List.mem_cons_of_mem _ hq)]
    rfl

theorem Pending.insert_rising {p : Pending} (hp : p.Rising) (id : Nat) (e : Option Byte) :
    (p.insert id e).Rising := by
  induction p with
  | nil => exact List.pairwise_singleton _ _
  | cons r p ih =>
    obtain ⟨k, f⟩ := r
    obtain ⟨hlt, hr⟩ := List.pairwise_cons.1 hp
    rw [Pending.insert]
    split
    · next h =>
      refine List.pairwise_cons.2 ⟨fun q hq => ?_, hp⟩
      rcases List.mem_cons.1 hq with rfl | hq
      · exact h
      · exact lt_trans h (hlt q hq)
    split
    · next _ h => exact List.pairwise_cons.2 ⟨h ▸ hlt, hr⟩
    · next h1 h2 =>
      refine List.pairwise_cons.2 ⟨fun q hq => ?_, ih hr⟩
      rcases Pending.mem_insert hq with rfl | hq
      · show k < id
        omega
      · exact hlt q hq

theorem Pending.find_cons (k : Nat) (f : Option Byte) (p : Pending) (id : Nat) :
    Pending.find ((k, f) :: p) id = if id = k then some f else p.find id := by
  unfold Pending.find
  rw [List.lookup_cons]
  by_cases h : id = k
  · simp [h]
  · rw [show (id == k) = false by simpa using h, if_neg h]

theorem Pending.find_none_of_lt {p : Pending} {id : Nat} (h : ∀ q ∈ p, id < q.1) :
    p.find id = none := by
  induction p with
  | nil => rfl
  | cons r p ih =>
    have := h r List.mem_cons_self
    rw [Pending.find_cons, if_neg (by omega)]
    exact ih fun q hq => h q (List.mem_cons_of_mem _ hq)

/-- What is found after an insertion. -/
theorem Pending.find_insert {p : Pending} (hp : p.Rising) (id : Nat) (e : Option Byte) (k : Nat) :
    (p.insert id e).find k = if k = id then some e else p.find k := by
  induction p with
  | nil => exact Pending.find_cons id e [] k
  | cons r p ih =>
    obtain ⟨j, f⟩ := r
    obtain ⟨-, hr⟩ := List.pairwise_cons.1 hp
    rw [Pending.insert]
    split
    · rw [Pending.find_cons]
    split
    · next _ h =>
      subst h
      rw [Pending.find_cons, Pending.find_cons]
      split <;> rfl
    · next _ h =>
      rw [Pending.find_cons, ih hr, Pending.find_cons]
      by_cases hk : k = j
      · rw [if_pos hk, if_pos hk, if_neg (by omega)]
      · rw [if_neg hk, if_neg hk]

theorem Pending.mem_erase {p : Pending} {id : Nat} {q : Nat × Option Byte} :
    q ∈ p.erase id ↔ q ∈ p ∧ q.1 ≠ id := by
  simp [Pending.erase]

theorem Pending.erase_rising {p : Pending} (hp : p.Rising) (id : Nat) : (p.erase id).Rising :=
  List.Pairwise.filter _ hp

/-- What is found after a deletion. -/
theorem Pending.find_erase (p : Pending) (id k : Nat) :
    (p.erase id).find k = if k = id then none else p.find k := by
  induction p with
  | nil => unfold Pending.find; simp [Pending.erase]
  | cons r p ih =>
    obtain ⟨j, f⟩ := r
    unfold Pending.erase at ih ⊢
    by_cases hj : j = id
    · rw [List.filter_cons_of_neg (by simp [hj]), ih, Pending.find_cons]
      subst hj
      split <;> rfl
    · rw [List.filter_cons_of_pos (by simp [hj]), Pending.find_cons, ih, Pending.find_cons]
      by_cases hk : k = j
      · rw [if_pos hk, if_pos hk, if_neg (by omega)]
      · rw [if_neg hk, if_neg hk]

/-- A listed entry is found under its identifier. -/
theorem Pending.find_of_mem {p : Pending} (hp : p.Rising) {q : Nat × Option Byte} (h : q ∈ p) :
    p.find q.1 = some q.2 := by
  induction p with
  | nil => cases h
  | cons r p ih =>
    obtain ⟨hlt, hr⟩ := List.pairwise_cons.1 hp
    rw [Pending.find_cons]
    rcases List.mem_cons.1 h with rfl | h
    · rw [if_pos rfl]
    · have := hlt q h
      rw [if_neg (by omega)]
      exact ih hr h

/-- A found entry is listed. -/
theorem Pending.mem_of_find {p : Pending} {id : Nat} {e : Option Byte} (h : p.find id = some e) :
    (id, e) ∈ p := by
  induction p with
  | nil => cases h
  | cons r p ih =>
    obtain ⟨k, f⟩ := r
    rw [Pending.find_cons] at h
    split at h
    · next hk =>
      cases h
      exact hk ▸ List.mem_cons_self
    · exact List.mem_cons_of_mem _ (ih h)

end Sys2Proof.Machine
end

