-- ==== Sys2Proof/Laws/State.lean ====
section
/-! SUPPORT. One lemma per field per named update of the state, so that no later proof unfolds a
record update. -/

namespace Sys2Proof.Machine

section
variable (s : State)

/-! ### setRegs -/

@[simp] theorem State.setRegs_regs (x : List Word) : (s.setRegs x).regs = x := rfl
@[simp] theorem State.setRegs_pc (x : List Word) : (s.setRegs x).pc = s.pc := rfl
@[simp] theorem State.setRegs_stall (x : List Word) : (s.setRegs x).stall = s.stall := rfl
@[simp] theorem State.setRegs_run (x : List Word) : (s.setRegs x).run = s.run := rfl
@[simp] theorem State.setRegs_pending (x : List Word) : (s.setRegs x).pending = s.pending := rfl
@[simp] theorem State.setRegs_handlers (x : List Word) : (s.setRegs x).handlers = s.handlers := rfl
@[simp] theorem State.setRegs_image (x : List Word) : (s.setRegs x).image = s.image := rfl
@[simp] theorem State.setRegs_params (x : List Word) : (s.setRegs x).params = s.params := rfl
@[simp] theorem State.setRegs_mem (x : List Word) : (s.setRegs x).mem = s.mem := rfl
@[simp] theorem State.setRegs_inflight (x : List Word) : (s.setRegs x).inflight = s.inflight := rfl
@[simp] theorem State.setRegs_nextId (x : List Word) : (s.setRegs x).nextId = s.nextId := rfl
@[simp] theorem State.setRegs_agenda (x : List Word) : (s.setRegs x).agenda = s.agenda := rfl
@[simp] theorem State.setRegs_later (x : List Word) : (s.setRegs x).later = s.later := rfl
@[simp] theorem State.setRegs_started (x : List Word) : (s.setRegs x).started = s.started := rfl
theorem State.setRegs_n (x : List Word) : (s.setRegs x).n = x.length + 2 := rfl

/-! ### setPc -/

@[simp] theorem State.setPc_regs (x : Word) : (s.setPc x).regs = s.regs := rfl
@[simp] theorem State.setPc_pc (x : Word) : (s.setPc x).pc = x := rfl
@[simp] theorem State.setPc_stall (x : Word) : (s.setPc x).stall = s.stall := rfl
@[simp] theorem State.setPc_run (x : Word) : (s.setPc x).run = s.run := rfl
@[simp] theorem State.setPc_pending (x : Word) : (s.setPc x).pending = s.pending := rfl
@[simp] theorem State.setPc_handlers (x : Word) : (s.setPc x).handlers = s.handlers := rfl
@[simp] theorem State.setPc_image (x : Word) : (s.setPc x).image = s.image := rfl
@[simp] theorem State.setPc_params (x : Word) : (s.setPc x).params = s.params := rfl
@[simp] theorem State.setPc_mem (x : Word) : (s.setPc x).mem = s.mem := rfl
@[simp] theorem State.setPc_inflight (x : Word) : (s.setPc x).inflight = s.inflight := rfl
@[simp] theorem State.setPc_nextId (x : Word) : (s.setPc x).nextId = s.nextId := rfl
@[simp] theorem State.setPc_agenda (x : Word) : (s.setPc x).agenda = s.agenda := rfl
@[simp] theorem State.setPc_later (x : Word) : (s.setPc x).later = s.later := rfl
@[simp] theorem State.setPc_started (x : Word) : (s.setPc x).started = s.started := rfl
@[simp] theorem State.setPc_n (x : Word) : (s.setPc x).n = s.n := rfl

/-! ### setStall -/

@[simp] theorem State.setStall_regs (x : Nat) : (s.setStall x).regs = s.regs := rfl
@[simp] theorem State.setStall_pc (x : Nat) : (s.setStall x).pc = s.pc := rfl
@[simp] theorem State.setStall_stall (x : Nat) : (s.setStall x).stall = x := rfl
@[simp] theorem State.setStall_run (x : Nat) : (s.setStall x).run = s.run := rfl
@[simp] theorem State.setStall_pending (x : Nat) : (s.setStall x).pending = s.pending := rfl
@[simp] theorem State.setStall_handlers (x : Nat) : (s.setStall x).handlers = s.handlers := rfl
@[simp] theorem State.setStall_image (x : Nat) : (s.setStall x).image = s.image := rfl
@[simp] theorem State.setStall_params (x : Nat) : (s.setStall x).params = s.params := rfl
@[simp] theorem State.setStall_mem (x : Nat) : (s.setStall x).mem = s.mem := rfl
@[simp] theorem State.setStall_inflight (x : Nat) : (s.setStall x).inflight = s.inflight := rfl
@[simp] theorem State.setStall_nextId (x : Nat) : (s.setStall x).nextId = s.nextId := rfl
@[simp] theorem State.setStall_agenda (x : Nat) : (s.setStall x).agenda = s.agenda := rfl
@[simp] theorem State.setStall_later (x : Nat) : (s.setStall x).later = s.later := rfl
@[simp] theorem State.setStall_started (x : Nat) : (s.setStall x).started = s.started := rfl
@[simp] theorem State.setStall_n (x : Nat) : (s.setStall x).n = s.n := rfl

/-! ### setRun -/

@[simp] theorem State.setRun_regs (x : RunState) : (s.setRun x).regs = s.regs := rfl
@[simp] theorem State.setRun_pc (x : RunState) : (s.setRun x).pc = s.pc := rfl
@[simp] theorem State.setRun_stall (x : RunState) : (s.setRun x).stall = s.stall := rfl
@[simp] theorem State.setRun_run (x : RunState) : (s.setRun x).run = x := rfl
@[simp] theorem State.setRun_pending (x : RunState) : (s.setRun x).pending = s.pending := rfl
@[simp] theorem State.setRun_handlers (x : RunState) : (s.setRun x).handlers = s.handlers := rfl
@[simp] theorem State.setRun_image (x : RunState) : (s.setRun x).image = s.image := rfl
@[simp] theorem State.setRun_params (x : RunState) : (s.setRun x).params = s.params := rfl
@[simp] theorem State.setRun_mem (x : RunState) : (s.setRun x).mem = s.mem := rfl
@[simp] theorem State.setRun_inflight (x : RunState) : (s.setRun x).inflight = s.inflight := rfl
@[simp] theorem State.setRun_nextId (x : RunState) : (s.setRun x).nextId = s.nextId := rfl
@[simp] theorem State.setRun_agenda (x : RunState) : (s.setRun x).agenda = s.agenda := rfl
@[simp] theorem State.setRun_later (x : RunState) : (s.setRun x).later = s.later := rfl
@[simp] theorem State.setRun_started (x : RunState) : (s.setRun x).started = s.started := rfl
@[simp] theorem State.setRun_n (x : RunState) : (s.setRun x).n = s.n := rfl

/-! ### setPending -/

@[simp] theorem State.setPending_regs (x : Pending) : (s.setPending x).regs = s.regs := rfl
@[simp] theorem State.setPending_pc (x : Pending) : (s.setPending x).pc = s.pc := rfl
@[simp] theorem State.setPending_stall (x : Pending) : (s.setPending x).stall = s.stall := rfl
@[simp] theorem State.setPending_run (x : Pending) : (s.setPending x).run = s.run := rfl
@[simp] theorem State.setPending_pending (x : Pending) : (s.setPending x).pending = x := rfl
@[simp] theorem State.setPending_handlers (x : Pending) : (s.setPending x).handlers = s.handlers := rfl
@[simp] theorem State.setPending_image (x : Pending) : (s.setPending x).image = s.image := rfl
@[simp] theorem State.setPending_params (x : Pending) : (s.setPending x).params = s.params := rfl
@[simp] theorem State.setPending_mem (x : Pending) : (s.setPending x).mem = s.mem := rfl
@[simp] theorem State.setPending_inflight (x : Pending) : (s.setPending x).inflight = s.inflight := rfl
@[simp] theorem State.setPending_nextId (x : Pending) : (s.setPending x).nextId = s.nextId := rfl
@[simp] theorem State.setPending_agenda (x : Pending) : (s.setPending x).agenda = s.agenda := rfl
@[simp] theorem State.setPending_later (x : Pending) : (s.setPending x).later = s.later := rfl
@[simp] theorem State.setPending_started (x : Pending) : (s.setPending x).started = s.started := rfl
@[simp] theorem State.setPending_n (x : Pending) : (s.setPending x).n = s.n := rfl

/-! ### setHandlers -/

@[simp] theorem State.setHandlers_regs (x : List Handler) : (s.setHandlers x).regs = s.regs := rfl
@[simp] theorem State.setHandlers_pc (x : List Handler) : (s.setHandlers x).pc = s.pc := rfl
@[simp] theorem State.setHandlers_stall (x : List Handler) : (s.setHandlers x).stall = s.stall := rfl
@[simp] theorem State.setHandlers_run (x : List Handler) : (s.setHandlers x).run = s.run := rfl
@[simp] theorem State.setHandlers_pending (x : List Handler) : (s.setHandlers x).pending = s.pending := rfl
@[simp] theorem State.setHandlers_handlers (x : List Handler) : (s.setHandlers x).handlers = x := rfl
@[simp] theorem State.setHandlers_image (x : List Handler) : (s.setHandlers x).image = s.image := rfl
@[simp] theorem State.setHandlers_params (x : List Handler) : (s.setHandlers x).params = s.params := rfl
@[simp] theorem State.setHandlers_mem (x : List Handler) : (s.setHandlers x).mem = s.mem := rfl
@[simp] theorem State.setHandlers_inflight (x : List Handler) : (s.setHandlers x).inflight = s.inflight := rfl
@[simp] theorem State.setHandlers_nextId (x : List Handler) : (s.setHandlers x).nextId = s.nextId := rfl
@[simp] theorem State.setHandlers_agenda (x : List Handler) : (s.setHandlers x).agenda = s.agenda := rfl
@[simp] theorem State.setHandlers_later (x : List Handler) : (s.setHandlers x).later = s.later := rfl
@[simp] theorem State.setHandlers_started (x : List Handler) : (s.setHandlers x).started = s.started := rfl
@[simp] theorem State.setHandlers_n (x : List Handler) : (s.setHandlers x).n = s.n := rfl

/-! ### setMem -/

@[simp] theorem State.setMem_regs (x : Memory) : (s.setMem x).regs = s.regs := rfl
@[simp] theorem State.setMem_pc (x : Memory) : (s.setMem x).pc = s.pc := rfl
@[simp] theorem State.setMem_stall (x : Memory) : (s.setMem x).stall = s.stall := rfl
@[simp] theorem State.setMem_run (x : Memory) : (s.setMem x).run = s.run := rfl
@[simp] theorem State.setMem_pending (x : Memory) : (s.setMem x).pending = s.pending := rfl
@[simp] theorem State.setMem_handlers (x : Memory) : (s.setMem x).handlers = s.handlers := rfl
@[simp] theorem State.setMem_image (x : Memory) : (s.setMem x).image = s.image := rfl
@[simp] theorem State.setMem_params (x : Memory) : (s.setMem x).params = s.params := rfl
@[simp] theorem State.setMem_mem (x : Memory) : (s.setMem x).mem = x := rfl
@[simp] theorem State.setMem_inflight (x : Memory) : (s.setMem x).inflight = s.inflight := rfl
@[simp] theorem State.setMem_nextId (x : Memory) : (s.setMem x).nextId = s.nextId := rfl
@[simp] theorem State.setMem_agenda (x : Memory) : (s.setMem x).agenda = s.agenda := rfl
@[simp] theorem State.setMem_later (x : Memory) : (s.setMem x).later = s.later := rfl
@[simp] theorem State.setMem_started (x : Memory) : (s.setMem x).started = s.started := rfl
@[simp] theorem State.setMem_n (x : Memory) : (s.setMem x).n = s.n := rfl

/-! ### setInflight -/

@[simp] theorem State.setInflight_regs (x : List Request) : (s.setInflight x).regs = s.regs := rfl
@[simp] theorem State.setInflight_pc (x : List Request) : (s.setInflight x).pc = s.pc := rfl
@[simp] theorem State.setInflight_stall (x : List Request) : (s.setInflight x).stall = s.stall := rfl
@[simp] theorem State.setInflight_run (x : List Request) : (s.setInflight x).run = s.run := rfl
@[simp] theorem State.setInflight_pending (x : List Request) : (s.setInflight x).pending = s.pending := rfl
@[simp] theorem State.setInflight_handlers (x : List Request) : (s.setInflight x).handlers = s.handlers := rfl
@[simp] theorem State.setInflight_image (x : List Request) : (s.setInflight x).image = s.image := rfl
@[simp] theorem State.setInflight_params (x : List Request) : (s.setInflight x).params = s.params := rfl
@[simp] theorem State.setInflight_mem (x : List Request) : (s.setInflight x).mem = s.mem := rfl
@[simp] theorem State.setInflight_inflight (x : List Request) : (s.setInflight x).inflight = x := rfl
@[simp] theorem State.setInflight_nextId (x : List Request) : (s.setInflight x).nextId = s.nextId := rfl
@[simp] theorem State.setInflight_agenda (x : List Request) : (s.setInflight x).agenda = s.agenda := rfl
@[simp] theorem State.setInflight_later (x : List Request) : (s.setInflight x).later = s.later := rfl
@[simp] theorem State.setInflight_started (x : List Request) : (s.setInflight x).started = s.started := rfl
@[simp] theorem State.setInflight_n (x : List Request) : (s.setInflight x).n = s.n := rfl

/-! ### setNextId -/

@[simp] theorem State.setNextId_regs (x : Nat) : (s.setNextId x).regs = s.regs := rfl
@[simp] theorem State.setNextId_pc (x : Nat) : (s.setNextId x).pc = s.pc := rfl
@[simp] theorem State.setNextId_stall (x : Nat) : (s.setNextId x).stall = s.stall := rfl
@[simp] theorem State.setNextId_run (x : Nat) : (s.setNextId x).run = s.run := rfl
@[simp] theorem State.setNextId_pending (x : Nat) : (s.setNextId x).pending = s.pending := rfl
@[simp] theorem State.setNextId_handlers (x : Nat) : (s.setNextId x).handlers = s.handlers := rfl
@[simp] theorem State.setNextId_image (x : Nat) : (s.setNextId x).image = s.image := rfl
@[simp] theorem State.setNextId_params (x : Nat) : (s.setNextId x).params = s.params := rfl
@[simp] theorem State.setNextId_mem (x : Nat) : (s.setNextId x).mem = s.mem := rfl
@[simp] theorem State.setNextId_inflight (x : Nat) : (s.setNextId x).inflight = s.inflight := rfl
@[simp] theorem State.setNextId_nextId (x : Nat) : (s.setNextId x).nextId = x := rfl
@[simp] theorem State.setNextId_agenda (x : Nat) : (s.setNextId x).agenda = s.agenda := rfl
@[simp] theorem State.setNextId_later (x : Nat) : (s.setNextId x).later = s.later := rfl
@[simp] theorem State.setNextId_started (x : Nat) : (s.setNextId x).started = s.started := rfl
@[simp] theorem State.setNextId_n (x : Nat) : (s.setNextId x).n = s.n := rfl

/-! ### setAgenda -/

@[simp] theorem State.setAgenda_regs (x : List Event) : (s.setAgenda x).regs = s.regs := rfl
@[simp] theorem State.setAgenda_pc (x : List Event) : (s.setAgenda x).pc = s.pc := rfl
@[simp] theorem State.setAgenda_stall (x : List Event) : (s.setAgenda x).stall = s.stall := rfl
@[simp] theorem State.setAgenda_run (x : List Event) : (s.setAgenda x).run = s.run := rfl
@[simp] theorem State.setAgenda_pending (x : List Event) : (s.setAgenda x).pending = s.pending := rfl
@[simp] theorem State.setAgenda_handlers (x : List Event) : (s.setAgenda x).handlers = s.handlers := rfl
@[simp] theorem State.setAgenda_image (x : List Event) : (s.setAgenda x).image = s.image := rfl
@[simp] theorem State.setAgenda_params (x : List Event) : (s.setAgenda x).params = s.params := rfl
@[simp] theorem State.setAgenda_mem (x : List Event) : (s.setAgenda x).mem = s.mem := rfl
@[simp] theorem State.setAgenda_inflight (x : List Event) : (s.setAgenda x).inflight = s.inflight := rfl
@[simp] theorem State.setAgenda_nextId (x : List Event) : (s.setAgenda x).nextId = s.nextId := rfl
@[simp] theorem State.setAgenda_agenda (x : List Event) : (s.setAgenda x).agenda = x := rfl
@[simp] theorem State.setAgenda_later (x : List Event) : (s.setAgenda x).later = s.later := rfl
@[simp] theorem State.setAgenda_started (x : List Event) : (s.setAgenda x).started = s.started := rfl
@[simp] theorem State.setAgenda_n (x : List Event) : (s.setAgenda x).n = s.n := rfl

/-! ### setLater -/

@[simp] theorem State.setLater_regs (x : Later) : (s.setLater x).regs = s.regs := rfl
@[simp] theorem State.setLater_pc (x : Later) : (s.setLater x).pc = s.pc := rfl
@[simp] theorem State.setLater_stall (x : Later) : (s.setLater x).stall = s.stall := rfl
@[simp] theorem State.setLater_run (x : Later) : (s.setLater x).run = s.run := rfl
@[simp] theorem State.setLater_pending (x : Later) : (s.setLater x).pending = s.pending := rfl
@[simp] theorem State.setLater_handlers (x : Later) : (s.setLater x).handlers = s.handlers := rfl
@[simp] theorem State.setLater_image (x : Later) : (s.setLater x).image = s.image := rfl
@[simp] theorem State.setLater_params (x : Later) : (s.setLater x).params = s.params := rfl
@[simp] theorem State.setLater_mem (x : Later) : (s.setLater x).mem = s.mem := rfl
@[simp] theorem State.setLater_inflight (x : Later) : (s.setLater x).inflight = s.inflight := rfl
@[simp] theorem State.setLater_nextId (x : Later) : (s.setLater x).nextId = s.nextId := rfl
@[simp] theorem State.setLater_agenda (x : Later) : (s.setLater x).agenda = s.agenda := rfl
@[simp] theorem State.setLater_later (x : Later) : (s.setLater x).later = x := rfl
@[simp] theorem State.setLater_started (x : Later) : (s.setLater x).started = s.started := rfl
@[simp] theorem State.setLater_n (x : Later) : (s.setLater x).n = s.n := rfl

/-! ### setStarted -/

@[simp] theorem State.setStarted_regs (x : Bool) : (s.setStarted x).regs = s.regs := rfl
@[simp] theorem State.setStarted_pc (x : Bool) : (s.setStarted x).pc = s.pc := rfl
@[simp] theorem State.setStarted_stall (x : Bool) : (s.setStarted x).stall = s.stall := rfl
@[simp] theorem State.setStarted_run (x : Bool) : (s.setStarted x).run = s.run := rfl
@[simp] theorem State.setStarted_pending (x : Bool) : (s.setStarted x).pending = s.pending := rfl
@[simp] theorem State.setStarted_handlers (x : Bool) : (s.setStarted x).handlers = s.handlers := rfl
@[simp] theorem State.setStarted_image (x : Bool) : (s.setStarted x).image = s.image := rfl
@[simp] theorem State.setStarted_params (x : Bool) : (s.setStarted x).params = s.params := rfl
@[simp] theorem State.setStarted_mem (x : Bool) : (s.setStarted x).mem = s.mem := rfl
@[simp] theorem State.setStarted_inflight (x : Bool) : (s.setStarted x).inflight = s.inflight := rfl
@[simp] theorem State.setStarted_nextId (x : Bool) : (s.setStarted x).nextId = s.nextId := rfl
@[simp] theorem State.setStarted_agenda (x : Bool) : (s.setStarted x).agenda = s.agenda := rfl
@[simp] theorem State.setStarted_later (x : Bool) : (s.setStarted x).later = s.later := rfl
@[simp] theorem State.setStarted_started (x : Bool) : (s.setStarted x).started = x := rfl
@[simp] theorem State.setStarted_n (x : Bool) : (s.setStarted x).n = s.n := rfl

end

end Sys2Proof.Machine
end

