-- ==== Sys2Proof/Laws/Ops.lean ====
section
/-! SUPPORT. The shared operations, each with what it can answer said once: a proof about an
instruction or an agent cites these and does not unfold the operation. -/

namespace Sys2Proof.Machine

/-! ### Raises -/

theorem raise_next {c : FatalCondition} {s t : State} :
    raise c s = .next t ↔ t = s.setRun (.faulted c) := by
  simp [raise, eq_comm]

@[simp] theorem commit_ok (s t : State) : commit s (.ok t) = .next t := rfl
@[simp] theorem commit_error (s : State) (c : FatalCondition) :
    commit s (.error c) = .next (s.setRun (.faulted c)) := rfl

/-- What `commit` answers: the state of a step that went through, or the state before with the raised
condition. -/
theorem commit_cases {s t : State} {r : Except FatalCondition State} (h : commit s r = .next t) :
    r = .ok t ∨ ∃ c, r = .error c ∧ t = s.setRun (.faulted c) := by
  cases r with
  | ok u => left; simpa using h
  | error c => right; exact ⟨c, rfl, by simpa [eq_comm] using h⟩

/-- `commit` always answers a next state. -/
theorem commit_answers (s : State) (r : Except FatalCondition State) : ∃ t, commit s r = .next t := by
  cases r with
  | ok u => exact ⟨u, rfl⟩
  | error c => exact ⟨_, rfl⟩

/-- A sequence of two checked operations goes through exactly if both do. -/
theorem bind_ok {α β : Type} {x : Except FatalCondition α} {f : α → Except FatalCondition β} {b : β} :
    (x >>= f) = .ok b ↔ ∃ a, x = .ok a ∧ f a = .ok b := by
  cases x with
  | ok a => simp [bind, Except.bind]
  | error c => simp [bind, Except.bind]

@[simp] theorem ok_bind {α β : Type} (a : α) (f : α → Except FatalCondition β) :
    ((Except.ok a : Except FatalCondition α) >>= f) = f a := rfl
@[simp] theorem error_bind {α β : Type} (c : FatalCondition) (f : α → Except FatalCondition β) :
    ((Except.error c : Except FatalCondition α) >>= f) = .error c := rfl

/-! ### Registers -/

@[simp] theorem readReg_zero (s : State) : readReg s 0 = .ok s.pc := rfl
@[simp] theorem readReg_one (s : State) : readReg s 1 = .ok 0 := rfl

theorem readReg_general {s : State} {i : Byte} (h2 : 2 ≤ i.toNat) (hn : i.toNat < s.n) :
    readReg s i = .ok (s.regs.getD (i.toNat - 2) 0) := by
  have h0 : i ≠ 0 := by rintro rfl; simp at h2
  have h1 : i ≠ 1 := by rintro rfl; simp at h2
  rw [readReg, if_neg h0, if_neg h1, if_neg (by omega)]

theorem readReg_outOfRange {s : State} {i : Byte} (h : s.n ≤ i.toNat) :
    readReg s i = .error (.registerIndexOutOfRange i s.pc) := by
  have hn : 2 ≤ s.n := by simp [State.n]
  have h0 : i ≠ 0 := by rintro rfl; simp at h; omega
  have h1 : i ≠ 1 := by rintro rfl; simp at h; omega
  rw [readReg, if_neg h0, if_neg h1, if_pos h]

/-- A read depends only on the program counter and the register file. -/
theorem readReg_congr {s t : State} (hp : t.pc = s.pc) (hr : t.regs = s.regs) (i : Byte) :
    readReg t i = readReg s i := by
  unfold readReg State.n
  rw [hp, hr]

/-- What a write that goes through has done. -/
theorem writeReg_ok {s t : State} {i : Byte} {v : Word} : writeReg s i v = .ok t ↔
    2 ≤ i.toNat ∧ i.toNat < s.n ∧ t = s.setRegs (s.regs.set (i.toNat - 2) v) := by
  unfold writeReg
  split
  · simp; omega
  split
  · simp; omega
  · simp only [Except.ok.injEq]
    constructor
    · rintro rfl; exact ⟨by omega, by omega, rfl⟩
    · rintro ⟨-, -, rfl⟩; rfl

theorem writeReg_reserved {s : State} {i : Byte} (h : i.toNat < 2) (v : Word) :
    writeReg s i v = .error (.reservedRegisterWrite i s.pc) := by
  rw [writeReg, if_pos h]

theorem writeReg_outOfRange {s : State} {i : Byte} (h : s.n ≤ i.toNat) (v : Word) :
    writeReg s i v = .error (.registerIndexOutOfRange i s.pc) := by
  have hn : 2 ≤ s.n := by simp [State.n]
  rw [writeReg, if_neg (by omega), if_pos h]

theorem writeReg_general {s : State} {i : Byte} (h2 : 2 ≤ i.toNat) (hn : i.toNat < s.n) (v : Word) :
    writeReg s i v = .ok (s.setRegs (s.regs.set (i.toNat - 2) v)) :=
  writeReg_ok.2 ⟨h2, hn, rfl⟩

/-! ### Requests -/

section
variable (s : State) (a : Word) (k : RequestKind) (e : Option Byte)

@[simp] theorem sendRequest_regs : (sendRequest s a k e).regs = s.regs := rfl
@[simp] theorem sendRequest_pc : (sendRequest s a k e).pc = s.pc := rfl
@[simp] theorem sendRequest_stall : (sendRequest s a k e).stall = s.stall := rfl
@[simp] theorem sendRequest_run : (sendRequest s a k e).run = s.run := rfl
@[simp] theorem sendRequest_handlers : (sendRequest s a k e).handlers = s.handlers := rfl
@[simp] theorem sendRequest_image : (sendRequest s a k e).image = s.image := rfl
@[simp] theorem sendRequest_params : (sendRequest s a k e).params = s.params := rfl
@[simp] theorem sendRequest_mem : (sendRequest s a k e).mem = s.mem := rfl
@[simp] theorem sendRequest_agenda : (sendRequest s a k e).agenda = s.agenda := rfl
@[simp] theorem sendRequest_later : (sendRequest s a k e).later = s.later := rfl
@[simp] theorem sendRequest_started : (sendRequest s a k e).started = s.started := rfl
@[simp] theorem sendRequest_n : (sendRequest s a k e).n = s.n := rfl
@[simp] theorem sendRequest_pending :
    (sendRequest s a k e).pending = s.pending.insert s.nextId e := rfl
@[simp] theorem sendRequest_inflight : (sendRequest s a k e).inflight =
    s.inflight ++ [{ id := s.nextId, addr := a, kind := k }] := rfl
@[simp] theorem sendRequest_nextId : (sendRequest s a k e).nextId = s.nextId + 1 := rfl

end

/-- What a load that is issued has done (R93). -/
theorem issueLoad_ok {s t : State} {a : Word} {d : Byte} : issueLoad s a d = .ok t ↔
    a < s.params.maxAddr ∧ t = sendRequest s a .read (some d) := by
  unfold issueLoad
  split
  · next h =>
    constructor
    · rintro ⟨⟩; exact ⟨h, rfl⟩
    · rintro ⟨-, rfl⟩; rfl
  · next h =>
    constructor
    · rintro ⟨⟩
    · rintro ⟨h', -⟩; exact absurd h' h

/-- What a store that is issued has done: the value is the register's at issue (R94). -/
theorem issueStore_ok {s t : State} {a : Word} {r : Byte} : issueStore s a r = .ok t ↔
    a < s.params.maxAddr ∧ ∃ v, readReg s r = .ok v ∧ t = sendRequest s a (.write v) none := by
  unfold issueStore
  split
  · next h =>
    rw [bind_ok]
    constructor
    · rintro ⟨v, hv, ⟨⟩⟩; exact ⟨h, v, hv, rfl⟩
    · rintro ⟨-, v, hv, rfl⟩; exact ⟨v, hv, rfl⟩
  · next h =>
    constructor
    · rintro ⟨⟩
    · rintro ⟨h', -⟩; exact absurd h' h

/-! ### The program counter -/

@[simp] theorem advancePc_eq (s : State) : advancePc s = s.setPc (s.pc + 4) := rfl

/-! ### Completions -/

/-- Everything a completion can do (R95, R104): nothing after the end of the run; the fatal condition
of an unknown identifier; the entry of a store leaves; or the entry of a load leaves and its
destination is written or is fatal. -/
theorem onCompletion_cases {s t : State} {id : Nat} {data : Word}
    (h : onCompletion s id data = .next t) :
    (s.run ≠ .running ∧ t = s) ∨
    (s.run = .running ∧ s.pending.find id = none ∧
      t = s.setRun (.faulted (.unknownRequestId id s.pc))) ∨
    (s.run = .running ∧ s.pending.find id = some none ∧
      t = s.setPending (s.pending.erase id)) ∨
    ∃ d, s.run = .running ∧ s.pending.find id = some (some d) ∧
      (writeReg (s.setPending (s.pending.erase id)) d data = .ok t ∨
        ∃ c, t = (s.setPending (s.pending.erase id)).setRun (.faulted c)) := by
  unfold onCompletion at h
  split at h
  · next hr =>
    split at h
    · next hf => exact .inr (.inl ⟨hr, hf, raise_next.1 h⟩)
    · next hf => exact .inr (.inr (.inl ⟨hr, hf, by simpa [eq_comm] using h⟩))
    · next d hf =>
      refine .inr (.inr (.inr ⟨d, hr, hf, ?_⟩))
      rcases commit_cases h with h | ⟨c, -, h⟩
      · exact .inl h
      · exact .inr ⟨c, h⟩
  · next hr => exact .inl ⟨hr, by simpa [eq_comm] using h⟩

/-- A completion always answers a next state. -/
theorem onCompletion_answers (s : State) (id : Nat) (data : Word) :
    ∃ t, onCompletion s id data = .next t := by
  unfold onCompletion
  split
  · split
    · exact ⟨_, rfl⟩
    · exact ⟨_, rfl⟩
    · exact commit_answers _ _
  · exact ⟨_, rfl⟩

/-- What no completion changes (R95, R104); only a fatal condition changes the run state, and nothing
changes after the end of the run. -/
theorem onCompletion_frame {s t : State} {id : Nat} {data : Word}
    (h : onCompletion s id data = .next t) :
    t.pc = s.pc ∧ t.stall = s.stall ∧ t.handlers = s.handlers ∧ t.image = s.image ∧
    t.params = s.params ∧ t.mem = s.mem ∧ t.regs.length = s.regs.length ∧
    t.inflight = s.inflight ∧ t.nextId = s.nextId ∧ t.agenda = s.agenda ∧
    (t.run = s.run ∨ s.run = .running ∧ t.run ≠ .halted) ∧ (s.run ≠ .running → t = s) := by
  rcases onCompletion_cases h with
    ⟨h1, rfl⟩ | ⟨h1, -, rfl⟩ | ⟨h1, -, rfl⟩ | ⟨d, h1, -, h3 | ⟨c, rfl⟩⟩
  · simp
  · simp [h1]
  · simp [h1]
  · obtain ⟨-, -, rfl⟩ := writeReg_ok.1 h3
    simp [h1]
  · simp [h1]

end Sys2Proof.Machine
end

