-- ==== Sys2Proof/Laws/Alu.lean ====
section
/-! SUPPORT. The arithmetic of the ALU and of the jumps against the library's own operations. -/

namespace Sys2Proof.Machine

/-- The quotient of R106 is the library's truncating one. -/
theorem truncDiv_eq_tdiv (a b : Int) : truncDiv a b = a.tdiv b := by
  unfold truncDiv
  rcases Int.natAbs_eq a with h | h <;> rcases Int.natAbs_eq b with h' | h'
  all_goals
    generalize a.natAbs = x at *
    generalize b.natAbs = y at *
    subst h h'
    rcases Nat.eq_zero_or_pos x with rfl | hx <;> rcases Nat.eq_zero_or_pos y with rfl | hy <;>
      simp [Int.sign_natCast_of_ne_zero, Int.sign_neg, *, Nat.ne_of_gt, Int.tdiv_neg, Int.neg_tdiv]

/-- The remainder of R106 is the library's truncating one. -/
theorem truncRem_eq_tmod (a b : Int) : truncRem a b = a.tmod b := by
  have h := Int.mul_tdiv_add_tmod a b
  rw [truncRem, truncDiv_eq_tdiv, Int.mul_comm]
  omega

/-- An absolute address is the field's number (R65). -/
theorem absoluteAddress_eq (addr : Half) : absoluteAddress addr = BitVec.ofNat 64 addr.toNat := by
  apply BitVec.eq_of_toNat_eq
  simp [absoluteAddress]

/-- A jump's target, as the spec computes it (R118). -/
theorem jumpTarget_eq (pc : Word) (off : Half) :
    jumpTarget pc off = BitVec.ofInt 64 (pc.toNat + off.toInt * 4) := by
  unfold jumpTarget jumpDisplacement
  rw [BitVec.ofInt_add, BitVec.ofInt_mul]
  congr 1
  simp

/-- A jump keeps the alignment of the program counter (R20). -/
theorem jumpTarget_mod_four (pc : Word) (off : Half) :
    (jumpTarget pc off).toNat % 4 = pc.toNat % 4 := by
  unfold jumpTarget jumpDisplacement
  rw [BitVec.toNat_add, BitVec.toNat_mul, show (4 : Word).toNat = 4 from rfl]
  omega

/-- The advance keeps the alignment of the program counter (R20). -/
theorem add_four_mod_four (pc : Word) : (pc + 4).toNat % 4 = pc.toNat % 4 := by
  rw [BitVec.toNat_add, show (4 : Word).toNat = 4 from rfl]
  omega

end Sys2Proof.Machine
end

