-- ==== Sys2Proof/Laws/Codec.lean ====
section
/-! SUPPORT. The byte fields of words and of encodings: what the round-trip statements cite. -/

namespace Sys2Proof

/-- A bit of the word of four bytes: bit `i % 8` of byte `i / 8`. -/
theorem getLsbD_wordOfBytes (b0 b1 b2 b3 : Byte) (i : Nat) :
    (wordOfBytes b0 b1 b2 b3).getLsbD i =
      if i < 8 then b0.getLsbD i
      else if i < 16 then b1.getLsbD (i - 8)
      else if i < 24 then b2.getLsbD (i - 16)
      else if i < 32 then b3.getLsbD (i - 24) else false := by
  simp only [wordOfBytes, BitVec.getLsbD_or, BitVec.getLsbD_shiftLeft, BitVec.getLsbD_setWidth]
  rcases Nat.lt_or_ge i 8 with h | h
  · simp [h, show i < 32 by omega, show i < 16 by omega, show i < 24 by omega]
  rw [BitVec.getLsbD_of_ge b0 i h]
  rcases Nat.lt_or_ge i 16 with h2 | h2
  · simp [h2, show i < 32 by omega, show ¬ i < 8 by omega, show i < 24 by omega]
    intro; omega
  rw [BitVec.getLsbD_of_ge b1 (i - 8) (by omega)]
  rcases Nat.lt_or_ge i 24 with h3 | h3
  · simp [h3, show i < 32 by omega, show ¬ i < 8 by omega, show ¬ i < 16 by omega]
    intro; omega
  rw [BitVec.getLsbD_of_ge b2 (i - 16) (by omega)]
  rcases Nat.lt_or_ge i 32 with h4 | h4
  · simp [h4, show ¬ i < 8 by omega, show ¬ i < 16 by omega, show ¬ i < 24 by omega]
    intro; omega
  · simp [show ¬ i < 32 by omega, show ¬ i < 8 by omega, show ¬ i < 16 by omega,
      show ¬ i < 24 by omega]

/-- A bit of a byte of a word. -/
theorem getLsbD_byteOfWord (w : InstrWord) (k i : Nat) :
    (byteOfWord w k).getLsbD i = (decide (i < 8) && w.getLsbD (8 * k + i)) := by
  simp [byteOfWord]

/-! ### Fields of a word of four bytes (R59) -/

section
variable (b0 b1 b2 b3 : Byte)

@[simp] theorem byteOfWord_wordOfBytes_zero : byteOfWord (wordOfBytes b0 b1 b2 b3) 0 = b0 := by
  apply BitVec.eq_of_getLsbD_eq
  intro i hi
  rw [getLsbD_byteOfWord, getLsbD_wordOfBytes]
  simp [hi]

@[simp] theorem byteOfWord_wordOfBytes_one : byteOfWord (wordOfBytes b0 b1 b2 b3) 1 = b1 := by
  apply BitVec.eq_of_getLsbD_eq
  intro i hi
  rw [getLsbD_byteOfWord, getLsbD_wordOfBytes]
  simp [hi, show 8 + i < 16 by omega]

@[simp] theorem byteOfWord_wordOfBytes_two : byteOfWord (wordOfBytes b0 b1 b2 b3) 2 = b2 := by
  apply BitVec.eq_of_getLsbD_eq
  intro i hi
  rw [getLsbD_byteOfWord, getLsbD_wordOfBytes]
  simp [hi, show ¬ 16 + i < 8 by omega,
    show 16 + i < 24 by omega]

@[simp] theorem byteOfWord_wordOfBytes_three : byteOfWord (wordOfBytes b0 b1 b2 b3) 3 = b3 := by
  apply BitVec.eq_of_getLsbD_eq
  intro i hi
  rw [getLsbD_byteOfWord, getLsbD_wordOfBytes]
  simp [hi, show ¬ 24 + i < 8 by omega,
    show ¬ 24 + i < 16 by omega, show 24 + i < 32 by omega]

/-- The 16-bit field at bit 8 is bytes 1 and 2. -/
theorem absField_wordOfBytes : (wordOfBytes b0 b1 b2 b3).extractLsb' 8 16 =
    b1.setWidth 16 ||| b2.setWidth 16 <<< 8 := by
  apply BitVec.eq_of_getLsbD_eq
  intro i hi
  rcases Nat.lt_or_ge i 8 with h | h
  · simp [getLsbD_wordOfBytes, hi, h, show 8 + i < 16 by omega]
  · simp [getLsbD_wordOfBytes, hi, show ¬ i < 8 by omega, show ¬ 8 + i < 16 by omega,
      show 8 + i < 24 by omega, show 8 + i - 16 = i - 8 by omega, BitVec.getLsbD_of_ge b1 i h]

/-- The 16-bit field at bit 16 is bytes 2 and 3. -/
theorem offField_wordOfBytes : (wordOfBytes b0 b1 b2 b3).extractLsb' 16 16 =
    b2.setWidth 16 ||| b3.setWidth 16 <<< 8 := by
  apply BitVec.eq_of_getLsbD_eq
  intro i hi
  rw [BitVec.getLsbD_extractLsb', getLsbD_wordOfBytes]
  rcases Nat.lt_or_ge i 8 with h | h
  · simp [hi, h, show ¬ 16 + i < 8 by omega, show 16 + i < 24 by omega]
  · simp [hi, show ¬ i < 8 by omega, show ¬ 16 + i < 8 by omega,
      show ¬ 16 + i < 16 by omega, show ¬ 16 + i < 24 by omega, show 16 + i < 32 by omega,
      show 16 + i - 24 = i - 8 by omega, BitVec.getLsbD_of_ge b2 i h]

/-- The codec's fields of a word of four bytes (R59). -/
@[simp] theorem fieldsOf_wordOfBytes : fieldsOf (wordOfBytes b0 b1 b2 b3) =
    { opcode := b0, reg1 := b1, reg2 := b2, writeReg := b3
      jumpOffset16 := b2.setWidth 16 ||| b3.setWidth 16 <<< 8
      absAddr16 := b1.setWidth 16 ||| b2.setWidth 16 <<< 8 } := by
  simp [fieldsOf, absField_wordOfBytes, offField_wordOfBytes]

end

/-- A word is the word of its four bytes (R58). -/
@[simp] theorem wordOfBytes_bytes (w : InstrWord) :
    wordOfBytes (byteOfWord w 0) (byteOfWord w 1) (byteOfWord w 2) (byteOfWord w 3) = w := by
  apply BitVec.eq_of_getLsbD_eq
  intro i hi
  simp only [getLsbD_wordOfBytes, getLsbD_byteOfWord]
  split
  · simp [*]
  split
  · rw [show 8 * 1 + (i - 8) = i by omega]; simp [show i - 8 < 8 by omega]
  split
  · rw [show 8 * 2 + (i - 16) = i by omega]; simp [show i - 16 < 8 by omega]
  · rw [show 8 * 3 + (i - 24) = i by omega]; simp [show i - 24 < 8 by omega, hi]

/-- A 16-bit field is its low byte and its high byte. -/
theorem half_bytes (h : Half) :
    (h.setWidth 8).setWidth 16 ||| (h.extractLsb' 8 8).setWidth 16 <<< 8 = h := by
  apply BitVec.eq_of_getLsbD_eq
  intro i hi
  rcases Nat.lt_or_ge i 8 with h8 | h8
  · simp [hi, h8]
  · simp [hi, show ¬ i < 8 by omega, show 8 + (i - 8) = i by omega]
    intro; omega

/-! ### Encodings as words of four bytes -/

theorem encodeA_eq (op : Byte) (addr : Half) (r : Byte) :
    encodeA op addr r = wordOfBytes op (addr.setWidth 8) (addr.extractLsb' 8 8) r := by
  apply BitVec.eq_of_getLsbD_eq
  intro i hi
  rw [getLsbD_wordOfBytes]
  simp only [encodeA, BitVec.getLsbD_or, BitVec.getLsbD_shiftLeft, BitVec.getLsbD_setWidth,
    BitVec.getLsbD_extractLsb', hi, decide_true, Bool.true_and]
  rcases Nat.lt_or_ge i 8 with h | h
  · simp [h, show i < 24 by omega]
  rw [BitVec.getLsbD_of_ge op i h]
  rcases Nat.lt_or_ge i 16 with h2 | h2
  · simp [h2, show ¬ i < 8 by omega, show i < 24 by omega, show i - 8 < 32 by omega,
      show i - 8 < 8 by omega]
  rcases Nat.lt_or_ge i 24 with h3 | h3
  · simp [h3, show ¬ i < 8 by omega, show ¬ i < 16 by omega, show i - 8 < 32 by omega,
      show i - 16 < 8 by omega, show 8 + (i - 16) = i - 8 by omega]
  rw [BitVec.getLsbD_of_ge addr (i - 8) (by omega)]
  simp [show ¬ i < 8 by omega, show ¬ i < 16 by omega, show ¬ i < 24 by omega,
    show i - 24 < 32 by omega]

theorem encodeJ_eq (op t : Byte) (off : Half) :
    encodeJ op t off = wordOfBytes op t (off.setWidth 8) (off.extractLsb' 8 8) := by
  apply BitVec.eq_of_getLsbD_eq
  intro i hi
  rw [getLsbD_wordOfBytes]
  simp only [encodeJ, BitVec.getLsbD_or, BitVec.getLsbD_shiftLeft, BitVec.getLsbD_setWidth,
    BitVec.getLsbD_extractLsb', hi, decide_true, Bool.true_and]
  rcases Nat.lt_or_ge i 8 with h | h
  · simp [h, show i < 16 by omega]
  rw [BitVec.getLsbD_of_ge op i h]
  rcases Nat.lt_or_ge i 16 with h2 | h2
  · simp [h2, show ¬ i < 8 by omega, show i - 8 < 32 by omega]
  rw [BitVec.getLsbD_of_ge t (i - 8) (by omega)]
  rcases Nat.lt_or_ge i 24 with h3 | h3
  · simp [h3, show ¬ i < 8 by omega, show ¬ i < 16 by omega, show i - 16 < 32 by omega,
      show i - 16 < 8 by omega]
  simp [show ¬ i < 8 by omega, show ¬ i < 16 by omega, show ¬ i < 24 by omega,
    show i - 16 < 32 by omega, show i - 24 < 8 by omega, show 8 + (i - 24) = i - 16 by omega]

theorem encodeN_eq (op : Byte) : encodeN op = wordOfBytes op 0 0 0 := by
  apply BitVec.eq_of_getLsbD_eq
  intro i hi
  rw [getLsbD_wordOfBytes]
  simp only [encodeN, BitVec.getLsbD_setWidth, hi, decide_true, Bool.true_and]
  split
  · rfl
  · rw [BitVec.getLsbD_of_ge op i (by omega)]; simp

/-- The bytes of a word decode to the word's instruction and leave what follows (R71). -/
@[simp] theorem decode_bytesOfWord (w : InstrWord) (rest : List Byte) :
    decode (bytesOfWord w ++ rest) = .ok (decodeWord w, rest) := by
  simp [bytesOfWord, decode]

/-- The host's reading of a table word is the decoder's. -/
theorem decodeTableWord_eq (nbits w : Nat) :
    decodeTableWord nbits w = some (decodeWord (tableWord nbits w)) := by
  have h := decode_bytesOfWord (tableWord nbits w) []
  rw [List.append_nil] at h
  simp [decodeTableWord, h]

/-! ### Case analysis on an opcode -/

/-- A property of every opcode of the fixed table, opcode by opcode (R66). -/
theorem forall_fixed {P : Byte → Prop}
    (h : ∀ n ∈ [0, 1, 2, 8, 9, 16, 17, 18, 19, 20, 32, 33, 34, 35, 129, 130, 131, 255],
      P (BitVec.ofNat 8 n)) : ∀ op ∈ Opcode.fixed, P op := by
  simp only [List.forall_mem_cons] at h
  obtain ⟨h0, h1, h2, h3, h4, h5, h6, h7, h8, h9, h10, h11, h12, h13, h14, h15, h16, h17, -⟩ := h
  simp only [Opcode.fixed, Opcode.loadStore, Opcode.alu, Opcode.jump, List.cons_append,
    List.nil_append, List.forall_mem_cons]
  exact ⟨h0, h1, h2, h3, h4, h5, h6, h7, h8, h9, h10, h11, h12, h13, h14, h15, h16, h17, by simp⟩

/-- The opcodes outside the fixed table are those of class custom (R67, R75). -/
theorem notMem_fixed_iff {op : Byte} : op ∉ Opcode.fixed ↔ opClass op = .custom := by
  revert op
  decide

/-- A property of what a word decodes to: shown for the opcodes of the fixed table, where the
opcode may be put for the word's byte 0, and for a custom word (R82). -/
theorem decodeWord_elim {P : Instr → Prop} (w : InstrWord)
    (fixed : ∀ op ∈ Opcode.fixed, byteOfWord w 0 = op →
      P (instrOfFields { fieldsOf w with opcode := op } w))
    (custom : byteOfWord w 0 ∉ Opcode.fixed → P (.custom w)) : P (decodeWord w) := by
  by_cases h : byteOfWord w 0 ∈ Opcode.fixed
  · exact fixed _ h rfl
  · have hw : decodeWord w = .custom w := by
      unfold decodeWord instrOfFields
      simp only [Opcode.fixed, Opcode.loadStore, Opcode.alu, Opcode.jump, List.cons_append,
        List.nil_append, List.mem_cons, List.not_mem_nil, or_false, not_or] at h
      obtain ⟨h0, h1, h2, h3, h4, h5, h6, h7, h8, h9, h10, h11, h12, h13, h14, h15, h16, h17⟩ := h
      simp only [show (fieldsOf w).opcode = byteOfWord w 0 from rfl]
      rw [if_neg h0, if_neg h1, if_neg h2, if_neg h3, if_neg h4, if_neg h5, if_neg h6, if_neg h7,
        if_neg h8, if_neg h9, if_neg h10, if_neg h11, if_neg h12, if_neg h13, if_neg h14,
        if_neg h15, if_neg h16, if_neg h17]
    rw [hw]
    exact custom h

end Sys2Proof
end

