-- ==== Sys2Proof/Laws/Exec.lean ====
section
/-! SUPPORT. What an instruction can do, said once per shape and once for the dispatcher
(`exec_cases`): the invariants and the whole-machine rules follow by cases from here. -/

namespace Sys2Proof.Machine

/-! ### ALU, load/store and jump shapes -/

theorem finishAlu_ok {op d : Byte} {v : Word} {s t : State} : finishAlu op d v s = .ok t ↔
    2 ≤ d.toNat ∧ d.toNat < s.n ∧
      t = ((s.setRegs (s.regs.set (d.toNat - 2) v)).setStall (latency s.params op)).setPc
        (s.pc + 4) := by
  unfold finishAlu
  rw [bind_ok]
  constructor
  · rintro ⟨u, hu, ⟨⟩⟩
    obtain ⟨h2, hn, rfl⟩ := writeReg_ok.1 hu
    exact ⟨h2, hn, rfl⟩
  · rintro ⟨h2, hn, rfl⟩
    exact ⟨_, writeReg_general h2 hn v, rfl⟩

/-- A two-source ALU instruction raises, or writes one general register, sets the latency and
advances (R105). -/
theorem alu2_cases {op : Byte} {f : Word → Word → Word → Except FatalCondition Word}
    {s1 s2 d : Byte} {s t : State} (h : alu2 op f s1 s2 d s = .next t) :
    (∃ c, t = s.setRun (.faulted c)) ∨
    ∃ v, 2 ≤ d.toNat ∧ d.toNat < s.n ∧
      t = ((s.setRegs (s.regs.set (d.toNat - 2) v)).setStall (latency s.params op)).setPc
        (s.pc + 4) := by
  rcases commit_cases h with h | ⟨c, -, h⟩
  · simp only [bind_ok] at h
    obtain ⟨a, -, b, -, v, -, hf⟩ := h
    exact .inr ⟨v, finishAlu_ok.1 hf⟩
  · exact .inl ⟨c, h⟩

/-- NOT, likewise (R115). -/
theorem alu1_cases {op : Byte} {f : Word → Word} {s1 d : Byte} {s t : State}
    (h : alu1 op f s1 d s = .next t) :
    (∃ c, t = s.setRun (.faulted c)) ∨
    ∃ v, 2 ≤ d.toNat ∧ d.toNat < s.n ∧
      t = ((s.setRegs (s.regs.set (d.toNat - 2) v)).setStall (latency s.params op)).setPc
        (s.pc + 4) := by
  rcases commit_cases h with h | ⟨c, -, h⟩
  · simp only [bind_ok] at h
    obtain ⟨a, -, hf⟩ := h
    exact .inr ⟨f a, finishAlu_ok.1 hf⟩
  · exact .inl ⟨c, h⟩

/-- A load raises, or issues one read for its destination and advances (R97, R98). -/
theorem loadFrom_cases {s t : State} {addr : Except FatalCondition Word} {d : Byte}
    (h : loadFrom s addr d = .next t) :
    (∃ c, t = s.setRun (.faulted c)) ∨
    ∃ a, a < s.params.maxAddr ∧ t = (sendRequest s a .read (some d)).setPc (s.pc + 4) := by
  rcases commit_cases h with h | ⟨c, -, h⟩
  · simp only [bind_ok] at h
    obtain ⟨a, -, u, hu, ⟨⟩⟩ := h
    obtain ⟨ha, rfl⟩ := issueLoad_ok.1 hu
    exact .inr ⟨a, ha, rfl⟩
  · exact .inl ⟨c, h⟩

/-- A store raises, or issues one write and advances (R99, R100). -/
theorem storeTo_cases {s t : State} {addr : Except FatalCondition Word} {v : Byte}
    (h : storeTo s addr v = .next t) :
    (∃ c, t = s.setRun (.faulted c)) ∨
    ∃ a x, a < s.params.maxAddr ∧ t = (sendRequest s a (.write x) none).setPc (s.pc + 4) := by
  rcases commit_cases h with h | ⟨c, -, h⟩
  · simp only [bind_ok] at h
    obtain ⟨a, -, u, hu, ⟨⟩⟩ := h
    obtain ⟨ha, x, -, rfl⟩ := issueStore_ok.1 hu
    exact .inr ⟨a, x, ha, rfl⟩
  · exact .inl ⟨c, h⟩

/-- A jump raises, or changes the program counter alone, to the target or the next address (R118). -/
theorem jumpIf_cases {cond : Word → Bool} {b : Byte} {off : Half} {s t : State}
    (h : jumpIf cond b off s = .next t) :
    (∃ c, t = s.setRun (.faulted c)) ∨
    t = s.setPc (s.pc + 4) ∨ t = s.setPc (jumpTarget s.pc off) := by
  rcases commit_cases h with h | ⟨c, -, h⟩
  · simp only [bind_ok] at h
    obtain ⟨v, -, h⟩ := h
    simp only [Except.ok.injEq] at h
    subst h
    split
    · exact .inr (.inr rfl)
    · exact .inr (.inl rfl)
  · exact .inl ⟨c, h⟩

/-! ### Handler actions -/

/-- What a list of checked actions can do to the core, one register write or one issued request at a
time (R127). -/
inductive Acted : State → State → Prop where
  | refl (s : State) : Acted s s
  | write {s t : State} (d : Byte) (v : Word) : 2 ≤ d.toNat → d.toNat < s.n →
      Acted (s.setRegs (s.regs.set (d.toNat - 2) v)) t → Acted s t
  | send {s t : State} (a : Word) (k : RequestKind) (e : Option Byte) : a < s.params.maxAddr →
      (e.isSome = true ↔ k = .read) → Acted (sendRequest s a k e) t → Acted s t

/-- Applying actions acts on the core by writes and requests only. -/
theorem applyActions_acted (s : State) (p : Word) (acts : List Action) :
    Acted s (applyActions s p acts).1 := by
  induction acts generalizing s p with
  | nil => exact .refl s
  | cons act acts ih =>
    rw [applyActions]
    cases hr : applyAction s act with
    | error c => exact .refl s
    | ok t =>
      show Acted s (applyActions t (pcAfter p act) acts).1
      cases act with
      | read i =>
        obtain ⟨v, -, h⟩ := bind_ok.1 hr
        cases h
        exact ih ..
      | write i v =>
        obtain ⟨h2, hn, rfl⟩ := writeReg_ok.1 hr
        exact .write i v h2 hn (ih ..)
      | load a d =>
        obtain ⟨ha, rfl⟩ := issueLoad_ok.1 hr
        exact .send a .read (some d) ha (by simp) (ih ..)
      | store a r =>
        obtain ⟨ha, x, -, rfl⟩ := issueStore_ok.1 hr
        exact .send a (.write x) none ha (by simp) (ih ..)
      | setPC q =>
        cases hr
        exact ih ..

/-- What actions never change (R25, R30, R127). -/
theorem Acted.frame {s t : State} (h : Acted s t) :
    t.pc = s.pc ∧ t.stall = s.stall ∧ t.run = s.run ∧ t.handlers = s.handlers ∧
    t.image = s.image ∧ t.params = s.params ∧ t.mem = s.mem ∧ t.agenda = s.agenda ∧
    t.regs.length = s.regs.length := by
  induction h with
  | refl s => simp
  | write d v _ _ _ ih => simpa using ih
  | send a k e _ _ _ ih => simpa using ih

@[simp] theorem setHandlerState_regs (s : State) (i : Nat) (st : HandlerState) :
    (setHandlerState s i st).regs = s.regs := rfl
@[simp] theorem setHandlerState_pc (s : State) (i : Nat) (st : HandlerState) :
    (setHandlerState s i st).pc = s.pc := rfl
@[simp] theorem setHandlerState_stall (s : State) (i : Nat) (st : HandlerState) :
    (setHandlerState s i st).stall = s.stall := rfl
@[simp] theorem setHandlerState_run (s : State) (i : Nat) (st : HandlerState) :
    (setHandlerState s i st).run = s.run := rfl
@[simp] theorem setHandlerState_pending (s : State) (i : Nat) (st : HandlerState) :
    (setHandlerState s i st).pending = s.pending := rfl
@[simp] theorem setHandlerState_image (s : State) (i : Nat) (st : HandlerState) :
    (setHandlerState s i st).image = s.image := rfl
@[simp] theorem setHandlerState_params (s : State) (i : Nat) (st : HandlerState) :
    (setHandlerState s i st).params = s.params := rfl
@[simp] theorem setHandlerState_mem (s : State) (i : Nat) (st : HandlerState) :
    (setHandlerState s i st).mem = s.mem := rfl
@[simp] theorem setHandlerState_inflight (s : State) (i : Nat) (st : HandlerState) :
    (setHandlerState s i st).inflight = s.inflight := rfl
@[simp] theorem setHandlerState_nextId (s : State) (i : Nat) (st : HandlerState) :
    (setHandlerState s i st).nextId = s.nextId := rfl
@[simp] theorem setHandlerState_agenda (s : State) (i : Nat) (st : HandlerState) :
    (setHandlerState s i st).agenda = s.agenda := rfl
@[simp] theorem setHandlerState_later (s : State) (i : Nat) (st : HandlerState) :
    (setHandlerState s i st).later = s.later := rfl
@[simp] theorem setHandlerState_started (s : State) (i : Nat) (st : HandlerState) :
    (setHandlerState s i st).started = s.started := rfl
@[simp] theorem setHandlerState_n (s : State) (i : Nat) (st : HandlerState) :
    (setHandlerState s i st).n = s.n := rfl
@[simp] theorem setHandlerState_handlers (s : State) (i : Nat) (st : HandlerState) :
    (setHandlerState s i st).handlers = s.handlers.modify i fun h => { h with state := st } := rfl

/-- Where the registry lists `h` at `i`, the new registry is that one with `h`'s state replaced. -/
theorem setHandlerState_eq {s : State} {i : Nat} {h : Handler} (st : HandlerState)
    (hi : s.handlers[i]? = some h) :
    setHandlerState s i st = s.setHandlers (s.handlers.set i { h with state := st }) := by
  obtain ⟨hl, rfl⟩ := List.getElem?_eq_some_iff.1 hi
  refine congrArg s.setHandlers (List.ext_getElem? fun j => ?_)
  rw [List.getElem?_modify, List.getElem?_set]
  by_cases hj : i = j
  · subst hj
    simp [hl]
  · simp [hj]

/-- Everything a custom instruction can do (R126 to R129, R134): an unclaimed opcode is fatal; else
the claimant's state is stored, its actions act, and the step ends in an advance or a raise. -/
theorem execCustom_cases {w : InstrWord} {s t : State} (h : execCustom w s = .next t) :
    (∃ c, t = s.setRun (.faulted c)) ∨
    ∃ i st u, i < s.handlers.length ∧ Acted (setHandlerState s i st) u ∧
      ((∃ p, t = u.setPc p) ∨ ∃ c, t = u.setRun (.faulted c)) := by
  unfold execCustom at h
  split at h
  · exact .inl ⟨_, raise_next.1 h⟩
  · next i hd hc =>
    have hi : i < s.handlers.length := by
      unfold claimant at hc
      split at hc
      · cases hc
      · next j hj =>
        rw [Option.map_eq_some_iff] at hc
        obtain ⟨g, hg, hgi⟩ := hc
        cases hgi
        exact (List.getElem?_eq_some_iff.1 hg).1
    have ha := applyActions_acted (setHandlerState s i (hd.execute w (coreView s)).state) s.pc
      (hd.execute w (coreView s)).actions
    refine .inr ⟨i, _, _, hi, ha, ?_⟩
    dsimp only at h
    generalize applyActions _ _ _ = r at h
    obtain ⟨u, p, c⟩ := r
    cases c with
    | some c => exact .inr ⟨c, raise_next.1 h⟩
    | none =>
      dsimp only at h
      split at h
      · exact .inl ⟨p + 4, by simpa [nextPc, eq_comm] using h⟩
      · exact .inr ⟨_, raise_next.1 h⟩

/-! ### The dispatcher -/

/-- The next states of an instruction, by shape. -/
inductive ExecShape (i : Instr) (s : State) : State → Prop where
  /-- A raise before any effect. -/
  | fault (c : FatalCondition) : ExecShape i s (s.setRun (.faulted c))
  /-- NOOP or a jump not taken. -/
  | advance : opClass i.opcode ∈ [OpClass.noop, .jump] → ExecShape i s (s.setPc (s.pc + 4))
  /-- A taken jump. -/
  | jump (off : Half) : opClass i.opcode = .jump → ExecShape i s (s.setPc (jumpTarget s.pc off))
  /-- HALT. -/
  | halt : i = .halt → ExecShape i s ((s.setPc (s.pc + 4)).setRun .halted)
  /-- A load or store. -/
  | request (a : Word) (k : RequestKind) (e : Option Byte) : opClass i.opcode = .loadStore →
      a < s.params.maxAddr → (e.isSome = true ↔ k = .read) →
      ExecShape i s ((sendRequest s a k e).setPc (s.pc + 4))
  /-- An ALU instruction. -/
  | alu (d : Byte) (v : Word) : opClass i.opcode = .alu → i.opcode ∈ Opcode.alu →
      2 ≤ d.toNat → d.toNat < s.n →
      ExecShape i s (((s.setRegs (s.regs.set (d.toNat - 2) v)).setStall
        (latency s.params i.opcode)).setPc (s.pc + 4))
  /-- A custom instruction that advances. -/
  | custom (w : InstrWord) (k : Nat) (st : HandlerState) (u : State) (p : Word) : i = .custom w →
      k < s.handlers.length → Acted (setHandlerState s k st) u → ExecShape i s (u.setPc p)
  /-- A custom instruction that raises. -/
  | customFault (w : InstrWord) (k : Nat) (st : HandlerState) (u : State) (c : FatalCondition) :
      i = .custom w → k < s.handlers.length → Acted (setHandlerState s k st) u →
      ExecShape i s (u.setRun (.faulted c))

/-- Everything `exec` can answer. -/
theorem exec_cases {i : Instr} {s t : State} (h : exec i s = .next t) : ExecShape i s t := by
  have alu_shape : ∀ (op d : Byte), i.opcode = op → op ∈ Opcode.alu → opClass op = .alu →
      ((∃ c, t = s.setRun (.faulted c)) ∨
      ∃ v, 2 ≤ d.toNat ∧ d.toNat < s.n ∧
        t = ((s.setRegs (s.regs.set (d.toNat - 2) v)).setStall
          (latency s.params op)).setPc (s.pc + 4)) → ExecShape i s t := by
    rintro op d rfl hm hc (⟨c, rfl⟩ | ⟨v, h2, hn, rfl⟩)
    · exact .fault c
    · exact .alu d v hc hm h2 hn
  have jump_shape : opClass i.opcode = .jump → ∀ off, ((∃ c, t = s.setRun (.faulted c)) ∨
      t = s.setPc (s.pc + 4) ∨ t = s.setPc (jumpTarget s.pc off)) → ExecShape i s t := by
    rintro hi off (⟨c, rfl⟩ | rfl | rfl)
    · exact .fault c
    · exact .advance (by simp [hi])
    · exact .jump off hi
  cases i with
  | noop =>
    simp only [exec, execNoop, advancePc_eq, Host.Outcome.next.injEq] at h
    subst h
    exact .advance (by decide)
  | halt =>
    simp only [exec, execHalt, advancePc_eq, Host.Outcome.next.injEq] at h
    subst h
    exact .halt rfl
  | ld a d =>
    rcases loadFrom_cases h with ⟨c, rfl⟩ | ⟨a, ha, rfl⟩
    · exact .fault c
    · exact .request a .read (some d) (by rfl) ha (by simp)
  | lda addr d =>
    rcases loadFrom_cases h with ⟨c, rfl⟩ | ⟨a, ha, rfl⟩
    · exact .fault c
    · exact .request a .read (some d) (by rfl) ha (by simp)
  | st v a =>
    rcases storeTo_cases h with ⟨c, rfl⟩ | ⟨a, x, ha, rfl⟩
    · exact .fault c
    · exact .request a (.write x) none (by rfl) ha (by simp)
  | sta addr v =>
    rcases storeTo_cases h with ⟨c, rfl⟩ | ⟨a, x, ha, rfl⟩
    · exact .fault c
    · exact .request a (.write x) none (by rfl) ha (by simp)
  | add s1 s2 d =>
    simp only [exec, execAdd] at h
    exact alu_shape Opcode.add d rfl (by decide) (by decide) (alu2_cases h)
  | sub s1 s2 d =>
    simp only [exec, execSub] at h
    exact alu_shape Opcode.sub d rfl (by decide) (by decide) (alu2_cases h)
  | mul s1 s2 d =>
    simp only [exec, execMul] at h
    exact alu_shape Opcode.mul d rfl (by decide) (by decide) (alu2_cases h)
  | div s1 s2 d =>
    simp only [exec, execDiv] at h
    exact alu_shape Opcode.div d rfl (by decide) (by decide) (alu2_cases h)
  | mod s1 s2 d =>
    simp only [exec, execMod] at h
    exact alu_shape Opcode.mod d rfl (by decide) (by decide) (alu2_cases h)
  | and s1 s2 d =>
    simp only [exec, execAnd] at h
    exact alu_shape Opcode.and d rfl (by decide) (by decide) (alu2_cases h)
  | or s1 s2 d =>
    simp only [exec, execOr] at h
    exact alu_shape Opcode.or d rfl (by decide) (by decide) (alu2_cases h)
  | xor s1 s2 d =>
    simp only [exec, execXor] at h
    exact alu_shape Opcode.xor d rfl (by decide) (by decide) (alu2_cases h)
  | not s1 d =>
    simp only [exec, execNot] at h
    exact alu_shape Opcode.not d rfl (by decide) (by decide) (alu1_cases h)
  | jzero b off => exact jump_shape rfl off (jumpIf_cases h)
  | jneg b off => exact jump_shape rfl off (jumpIf_cases h)
  | jpos b off => exact jump_shape rfl off (jumpIf_cases h)
  | custom w =>
    rcases execCustom_cases h with ⟨c, rfl⟩ | ⟨k, st, u, hk, ha, ⟨p, rfl⟩ | ⟨c, rfl⟩⟩
    · exact .fault c
    · exact .custom w k st u p rfl hk ha
    · exact .customFault w k st u c rfl hk ha

/-- Every instruction answers a next state, in every state (log 10). -/
theorem exec_answers (i : Instr) (s : State) : ∃ t, exec i s = .next t := by
  cases i with
  | noop => exact ⟨_, rfl⟩
  | halt => exact ⟨_, rfl⟩
  | custom w =>
    show ∃ t, execCustom w s = .next t
    unfold execCustom
    split
    · exact ⟨_, rfl⟩
    · dsimp only
      split
      · exact ⟨_, rfl⟩
      · split <;> exact ⟨_, rfl⟩
  | _ => exact commit_answers _ _

end Sys2Proof.Machine
end

