-- ==== Sys2Proof/Laws/Step.lean ====
section
/-! SUPPORT. What the agents and the step can do, said once: one inversion lemma per agent. -/

namespace Sys2Proof.Machine

/-! ### The memory interface -/

/-- Performing a request either ends in the completion of a read, or writes eight bytes and ends in
the completion of a write; the request leaves (R44). -/
theorem performRequest_cases {s t : State} {r : Request} (h : performRequest s r = .next t) :
    (r.kind = .read ∧
      onCompletion (s.setInflight (s.inflight.filter fun q => q.id != r.id)) r.id
        (s.mem.read8 r.addr.toNat) = .next t) ∨
    ∃ v, r.kind = .write v ∧
      onCompletion ((s.setInflight (s.inflight.filter fun q => q.id != r.id)).setMem
        (s.mem.write8 r.addr.toNat v)) r.id 0 = .next t := by
  unfold performRequest at h
  cases hk : r.kind with
  | read => rw [hk] at h; exact .inl ⟨rfl, h⟩
  | write v => rw [hk] at h; exact .inr ⟨v, rfl, h⟩

/-- The memory interface does nothing, or performs an in-flight request that lies below MAXADDR
(R44). -/
theorem memoryStep_cases {s t : State} {id : Nat} (h : memoryStep s id = .next t) :
    t = s ∨ ∃ r ∈ s.inflight, r.id = id ∧ r.addr.toNat + 8 ≤ s.params.maxAddr.toNat ∧
      performRequest s r = .next t := by
  unfold memoryStep at h
  split at h
  · left; simpa [eq_comm] using h
  · next r hr =>
    split at h
    · next ha =>
      refine .inr ⟨r, List.mem_of_find?_eq_some hr, ?_, ?_, h⟩
      · simpa using List.find?_some hr
      · simpa [admissible] using ha
    · left; simpa [eq_comm] using h

/-- A stray completion does nothing, or is the fatal condition of an unknown identifier (R95). -/
theorem strayCompletion_cases {s t : State} {id : Nat} {data : Word}
    (h : strayCompletion s id data = .next t) :
    t = s ∨ (s.run = .running ∧ s.pending.find id = none ∧
      t = s.setRun (.faulted (.unknownRequestId id s.pc))) := by
  unfold strayCompletion at h
  split at h
  · next hf =>
    rcases onCompletion_cases h with ⟨-, h⟩ | h | ⟨-, hf', -⟩ | ⟨d, -, hf', -⟩
    · exact .inl h
    · exact .inr h
    · simp [hf] at hf'
    · simp [hf] at hf'
  · left; simpa [eq_comm] using h

/-! ### Handlers -/

/-- After HALT a handler's actions write registers and change nothing else (R163, log 11). -/
theorem applyAfterHalt_eq (s : State) (acts : List Action) :
    ∃ regs : List Word, regs.length = s.regs.length ∧ applyAfterHalt s acts = s.setRegs regs := by
  induction acts generalizing s with
  | nil => exact ⟨s.regs, rfl, rfl⟩
  | cons act acts ih =>
    cases act with
    | write i v =>
      rw [applyAfterHalt]
      cases hw : writeReg s i v with
      | ok u =>
        obtain ⟨-, -, rfl⟩ := writeReg_ok.1 hw
        obtain ⟨regs, hl, he⟩ := ih (s.setRegs (s.regs.set (i.toNat - 2) v))
        exact ⟨regs, by simpa using hl, he⟩
      | error c => exact ⟨s.regs, rfl, rfl⟩
    | read i =>
      rw [applyAfterHalt]
      cases readReg s i with
      | ok v => exact ih s
      | error c => exact ⟨s.regs, rfl, rfl⟩
    | load a d =>
      rw [applyAfterHalt]
      cases issueLoad s a d with
      | ok u => exact ih s
      | error c => exact ⟨s.regs, rfl, rfl⟩
    | store a r =>
      rw [applyAfterHalt]
      cases issueStore s a r with
      | ok u => exact ih s
      | error c => exact ⟨s.regs, rfl, rfl⟩
    | setPC p => exact ih s

/-- A handler step does nothing; or, while the core runs, stores the handler's state, acts, and
possibly raises; or, after the end of the run, stores its state and writes registers at most, none
after a fault (R131, R163, log 11). -/
theorem handlerStep_cases {s t : State} {k choice : Nat} (h : handlerStep s k choice = .next t) :
    t = s ∨
    (s.run = .running ∧ ∃ st u, k < s.handlers.length ∧ Acted (setHandlerState s k st) u ∧
      (t = u ∨ ∃ c, t = u.setRun (.faulted c))) ∨
    (s.run ≠ .running ∧ ∃ st regs, k < s.handlers.length ∧ regs.length = s.regs.length ∧
      (s.run ≠ .halted → regs = s.regs) ∧ t = (setHandlerState s k st).setRegs regs) := by
  unfold handlerStep at h
  split at h
  · left; simpa [eq_comm] using h
  next g hg =>
  have hk := (List.getElem?_eq_some_iff.1 hg).1
  split at h
  · left; simpa [eq_comm] using h
  next st acts hs =>
  have ha := applyActions_acted (setHandlerState s k st) (setHandlerState s k st).pc acts
  right
  dsimp only at h
  split at h
  · next hr =>
    left
    refine ⟨hr, st, _, hk, ha, ?_⟩
    generalize applyActions _ _ _ = r at h
    obtain ⟨u, p, c⟩ := r
    cases c with
    | some c => exact .inr ⟨c, raise_next.1 h⟩
    | none => exact .inl (by simpa [eq_comm] using h)
  · next hr =>
    right
    obtain ⟨regs, hl, he⟩ := applyAfterHalt_eq (setHandlerState s k st) acts
    refine ⟨by simp [hr], st, regs, hk, hl, fun hn => absurd hr hn, ?_⟩
    rw [he] at h
    simpa [eq_comm] using h
  · next c hr =>
    right
    refine ⟨by simp [hr], st, s.regs, hk, rfl, fun _ => rfl, ?_⟩
    cases h
    rfl

/-! ### The tick -/

/-- A tick does nothing; or counts the latency down; or raises at the fetch; or runs the instruction
at `pc`, with every gate open (R76). -/
theorem advance_cases {s t : State} (h : advance s = .next t) :
    (t = s ∧ (s.run ≠ .running ∨ s.pending ≠ [] ∨ anyBusy s = true)) ∨
    (s.run = .running ∧ 0 < s.stall ∧ t = s.setStall (s.stall - 1)) ∨
    (s.run = .running ∧ s.stall = 0 ∧ s.pending = [] ∧ anyBusy s = false ∧
      ((∃ c, imgRead32 s s.pc = .error c ∧ t = s.setRun (.faulted c)) ∨
       ∃ w, imgRead32 s s.pc = .ok w ∧ exec (decodeWord w) s = .next t)) := by
  unfold advance at h
  split at h
  · next hr => left; exact ⟨by simpa [eq_comm] using h, .inl (by simp [hr])⟩
  · next c hr => left; exact ⟨by simpa [eq_comm] using h, .inl (by simp [hr])⟩
  · next hr =>
    split at h
    · next hs => right; left; exact ⟨hr, hs, by simpa [eq_comm] using h⟩
    next hs =>
    split at h
    · next hg =>
      left
      refine ⟨by simpa [eq_comm] using h, .inr ?_⟩
      simpa [hasPending] using hg
    next hg =>
    simp only [hasPending, Bool.or_eq_true, not_or, Bool.not_eq_true', Bool.not_eq_true] at hg
    refine .inr (.inr ⟨hr, by omega, by simpa using hg.1, hg.2, ?_⟩)
    split at h
    · next c hc => exact .inl ⟨c, hc, raise_next.1 h⟩
    · next w hw => exact .inr ⟨w, hw, h⟩

/-! ### The step -/

/-- Everything an event can do: a tick is the core's, and another agent's step is no move before the
first tick, its own after it (R11, log 23). -/
theorem act_cases {s t : State} {e : Event} (h : act s e = .next t) :
    (e = .tick ∧ advance (s.setStarted true) = .next t) ∨
    (e ≠ .tick ∧ s.started = false ∧ t = s) ∨
    (s.started = true ∧
      ((∃ id, e = .memory id ∧ memoryStep s id = .next t) ∨
       (∃ id data, e = .stray id data ∧ strayCompletion s id data = .next t) ∨
       ∃ k choice, e = .handler k choice ∧ handlerStep s k choice = .next t)) := by
  have gate : ∀ {r : Result}, afterFirstTick s r = .next t →
      (s.started = false ∧ t = s) ∨ (s.started = true ∧ r = .next t) := by
    intro r hr
    unfold afterFirstTick at hr
    cases hs : s.started with
    | false =>
      rw [hs] at hr
      cases hr
      exact .inl ⟨rfl, rfl⟩
    | true =>
      rw [hs] at hr
      exact .inr ⟨rfl, hr⟩
  cases e with
  | tick => exact .inl ⟨rfl, h⟩
  | memory id =>
    rcases gate h with h | ⟨hs, h⟩
    · exact .inr (.inl ⟨Event.noConfusion, h⟩)
    · exact .inr (.inr ⟨hs, .inl ⟨id, rfl, h⟩⟩)
  | stray id data =>
    rcases gate h with h | ⟨hs, h⟩
    · exact .inr (.inl ⟨Event.noConfusion, h⟩)
    · exact .inr (.inr ⟨hs, .inr (.inl ⟨id, data, rfl, h⟩)⟩)
  | handler k choice =>
    rcases gate h with h | ⟨hs, h⟩
    · exact .inr (.inl ⟨Event.noConfusion, h⟩)
    · exact .inr (.inr ⟨hs, .inr (.inr ⟨k, choice, rfl, h⟩)⟩)

/-! What taking the next event changes: the agenda and what goes on after it. -/

section
variable (s : State)

@[simp] theorem popEvent_regs : (popEvent s).regs = s.regs := rfl
@[simp] theorem popEvent_pc : (popEvent s).pc = s.pc := rfl
@[simp] theorem popEvent_stall : (popEvent s).stall = s.stall := rfl
@[simp] theorem popEvent_run : (popEvent s).run = s.run := rfl
@[simp] theorem popEvent_pending : (popEvent s).pending = s.pending := rfl
@[simp] theorem popEvent_handlers : (popEvent s).handlers = s.handlers := rfl
@[simp] theorem popEvent_image : (popEvent s).image = s.image := rfl
@[simp] theorem popEvent_params : (popEvent s).params = s.params := rfl
@[simp] theorem popEvent_mem : (popEvent s).mem = s.mem := rfl
@[simp] theorem popEvent_inflight : (popEvent s).inflight = s.inflight := rfl
@[simp] theorem popEvent_nextId : (popEvent s).nextId = s.nextId := rfl
@[simp] theorem popEvent_agenda : (popEvent s).agenda = s.agenda.tail := rfl
@[simp] theorem popEvent_started : (popEvent s).started = s.started := rfl
@[simp] theorem popEvent_n : (popEvent s).n = s.n := rfl
theorem popEvent_later :
    (popEvent s).later = if s.agenda = [] then s.later.advance else s.later := rfl

/-- The head of a listed agenda is taken, and what goes on after it stays. -/
theorem nextEvent_cons {e : Event} {rest : List Event} (h : s.agenda = e :: rest) :
    nextEvent s = e ∧ popEvent s = s.setAgenda rest := by
  constructor
  · rw [nextEvent, h]
    rfl
  · rw [popEvent, h, if_neg (List.cons_ne_nil e rest)]
    rfl

/-- A schedule of one event over and over does not change. -/
theorem nextEvent_repeating {e : Event} (ha : s.agenda = []) (hl : s.later = .repeating [e]) :
    nextEvent s = e ∧ popEvent s = s := by
  constructor
  · simp [nextEvent, laterEvent, ha, hl]
  · rw [popEvent, if_pos ha, ha, hl]
    cases s
    simp only at ha hl
    subst ha hl
    rfl

end

/-- A fetch depends only on the image and MAXADDR (R55). -/
@[simp] theorem imgRead32_popEvent (s : State) (a : Word) :
    imgRead32 (popEvent s) a = imgRead32 s a := rfl

/-- The step is the next event's act on the state whose schedule has moved on (R11). -/
theorem step_of_event {s : State} {e : Event} (h : nextEvent s = e) :
    step s = act (popEvent s) e := by
  rw [step, h]

end Sys2Proof.Machine
end

