-- ==== Sys2Proof/Laws/Fetch.lean ====
section
/-! SUPPORT. Placing a word where the next step fetches it (log 18): the image keeps the shape its
header says, and the placed word is the one a fetch reads. -/

namespace Sys2Proof.Machine

/-- The padding makes a length a multiple of 8 (R40). -/
theorem padding_spec (n : Nat) : (n + padding n) % 8 = 0 ∧ padding n < 8 := by
  unfold padding
  omega

theorem Image.wf_iff {img : Image} : img.wf = true ↔
    img.body.length = img.dataLength + img.instLength + padding (img.dataLength + img.instLength) := by
  simp [Image.wf]

/-- The bytes of an image with a word placed in it: the word at its address. -/
theorem Image.place_byte (img : Image) (a : Nat) (w : InstrWord) {k : Nat} (hk : k < 4) :
    (img.place a w).byte (a + k) = byteOfWord w k := by
  have hlen : ((img.body ++ List.replicate (a - img.body.length) 0).take a).length = a := by
    rw [List.length_take, List.length_append, List.length_replicate]
    omega
  unfold Image.byte Image.place
  dsimp only
  rw [List.append_assoc, List.append_assoc, List.getD_eq_getElem?_getD,
    List.getElem?_append_right (by omega), hlen, Nat.add_sub_cancel_left,
    List.getElem?_append_left (by simp [bytesOfWord]; omega)]
  interval_cases k <;> rfl

theorem Image.place_length (img : Image) (a : Nat) (w : InstrWord) :
    a + 4 ≤ (img.place a w).body.length := by
  unfold Image.place
  simp only [List.length_append, List.length_take, List.length_replicate, bytesOfWord,
    List.length_cons, List.length_nil]
  omega

/-- Placing a word keeps the image as its header says (R40). -/
theorem Image.place_wf {img : Image} (h : img.wf = true) (a : Nat) (w : InstrWord) :
    (img.place a w).wf = true := by
  rw [Image.wf_iff] at h ⊢
  unfold Image.place
  simp only [List.length_append, List.length_take, List.length_replicate, bytesOfWord,
    List.length_cons, List.length_nil, List.length_drop]
  unfold padding at *
  omega

/-- The word a fetch at `pc` reads after `placeFetchWord` is the placed one (R41, log 18). -/
theorem fetch_placeFetchWord (s : State) (w : InstrWord) :
    imgRead32 (placeFetchWord s w) (placeFetchWord s w).pc = .ok w := by
  have hpc : (placeFetchWord s w).pc < (placeFetchWord s w).params.maxAddr := by
    show (reachablePc (openGates s)).pc < (reachablePc (openGates s)).params.maxAddr
    unfold reachablePc
    split
    · assumption
    split
    · show (0 : Word) < BitVec.allOnes 64
      decide
    · next h =>
      have : (openGates s).pc.toNat ≠ 2 ^ 64 - 1 := fun he =>
        h (BitVec.eq_of_toNat_eq (by simpa using he))
      have := (openGates s).pc.isLt
      show (openGates s).pc < BitVec.allOnes 64
      rw [BitVec.lt_def, BitVec.toNat_allOnes]
      omega
  have hlen := Image.place_length (reachablePc (openGates s)).image (placeFetchWord s w).pc.toNat w
  have hb : ∀ k, k < 4 → (placeFetchWord s w).image.byte ((placeFetchWord s w).pc.toNat + k) =
      byteOfWord w k := fun k hk => Image.place_byte _ _ w hk
  have hlen' : (placeFetchWord s w).pc.toNat + 4 ≤ (placeFetchWord s w).image.body.length := hlen
  have h0 := hb 0 (by omega)
  rw [Nat.add_zero] at h0
  rw [imgRead32, if_neg (not_not_intro hpc), if_neg (by omega)]
  simp only [h0, hb 1 (by omega), hb 2 (by omega), hb 3 (by omega), wordOfBytes_bytes]

end Sys2Proof.Machine
end

