-- ==== Sys2Proof/Laws/PerInstr.lean ====
section
/-! SUPPORT. Statements made for every instruction, one lemma per constructor. The family
`EncodedOpcode`: byte 0 of an encoding is the instruction's opcode (R58, R66, R70). -/

namespace Sys2Proof.Laws.EncodedOpcode

/-- Byte 0 of the encoded word is the opcode of the table. -/
def Statement (i : Instr) : Prop := byteOfWord (encode i) 0 = i.opcode

end Sys2Proof.Laws.EncodedOpcode

namespace Sys2Proof

/-- Byte 0 of a format A word (R62). -/
theorem encodedA_opcode (op : Byte) (addr : Half) (r : Byte) :
    byteOfWord (encodeA op addr r) 0 = op := by
  rw [encodeA_eq, byteOfWord_wordOfBytes_zero]

/-- Byte 0 of a format J word (R63). -/
theorem encodedJ_opcode (op t : Byte) (off : Half) : byteOfWord (encodeJ op t off) 0 = op := by
  rw [encodeJ_eq, byteOfWord_wordOfBytes_zero]

/-- Byte 0 of a format N word (R61). -/
theorem encodedN_opcode (op : Byte) : byteOfWord (encodeN op) 0 = op := by
  rw [encodeN_eq, byteOfWord_wordOfBytes_zero]

theorem Laws.EncodedOpcode.noop : Laws.EncodedOpcode.Statement (.noop) :=
  encodedN_opcode _

theorem Laws.EncodedOpcode.ld (a : Byte) (d : Byte) : Laws.EncodedOpcode.Statement (.ld a d) :=
  byteOfWord_wordOfBytes_zero _ _ _ _

theorem Laws.EncodedOpcode.lda (addr : Half) (d : Byte) : Laws.EncodedOpcode.Statement (.lda addr d) :=
  encodedA_opcode _ _ _

theorem Laws.EncodedOpcode.st (v : Byte) (a : Byte) : Laws.EncodedOpcode.Statement (.st v a) :=
  byteOfWord_wordOfBytes_zero _ _ _ _

theorem Laws.EncodedOpcode.sta (addr : Half) (v : Byte) : Laws.EncodedOpcode.Statement (.sta addr v) :=
  encodedA_opcode _ _ _

theorem Laws.EncodedOpcode.add (s1 : Byte) (s2 : Byte) (d : Byte) : Laws.EncodedOpcode.Statement (.add s1 s2 d) :=
  byteOfWord_wordOfBytes_zero _ _ _ _

theorem Laws.EncodedOpcode.sub (s1 : Byte) (s2 : Byte) (d : Byte) : Laws.EncodedOpcode.Statement (.sub s1 s2 d) :=
  byteOfWord_wordOfBytes_zero _ _ _ _

theorem Laws.EncodedOpcode.mul (s1 : Byte) (s2 : Byte) (d : Byte) : Laws.EncodedOpcode.Statement (.mul s1 s2 d) :=
  byteOfWord_wordOfBytes_zero _ _ _ _

theorem Laws.EncodedOpcode.div (s1 : Byte) (s2 : Byte) (d : Byte) : Laws.EncodedOpcode.Statement (.div s1 s2 d) :=
  byteOfWord_wordOfBytes_zero _ _ _ _

theorem Laws.EncodedOpcode.mod (s1 : Byte) (s2 : Byte) (d : Byte) : Laws.EncodedOpcode.Statement (.mod s1 s2 d) :=
  byteOfWord_wordOfBytes_zero _ _ _ _

theorem Laws.EncodedOpcode.and (s1 : Byte) (s2 : Byte) (d : Byte) : Laws.EncodedOpcode.Statement (.and s1 s2 d) :=
  byteOfWord_wordOfBytes_zero _ _ _ _

theorem Laws.EncodedOpcode.or (s1 : Byte) (s2 : Byte) (d : Byte) : Laws.EncodedOpcode.Statement (.or s1 s2 d) :=
  byteOfWord_wordOfBytes_zero _ _ _ _

theorem Laws.EncodedOpcode.xor (s1 : Byte) (s2 : Byte) (d : Byte) : Laws.EncodedOpcode.Statement (.xor s1 s2 d) :=
  byteOfWord_wordOfBytes_zero _ _ _ _

theorem Laws.EncodedOpcode.not (s1 : Byte) (d : Byte) : Laws.EncodedOpcode.Statement (.not s1 d) :=
  byteOfWord_wordOfBytes_zero _ _ _ _

theorem Laws.EncodedOpcode.jzero (t : Byte) (off : Half) : Laws.EncodedOpcode.Statement (.jzero t off) :=
  encodedJ_opcode _ _ _

theorem Laws.EncodedOpcode.jneg (t : Byte) (off : Half) : Laws.EncodedOpcode.Statement (.jneg t off) :=
  encodedJ_opcode _ _ _

theorem Laws.EncodedOpcode.jpos (t : Byte) (off : Half) : Laws.EncodedOpcode.Statement (.jpos t off) :=
  encodedJ_opcode _ _ _

theorem Laws.EncodedOpcode.halt : Laws.EncodedOpcode.Statement (.halt) :=
  encodedN_opcode _

theorem Laws.EncodedOpcode.custom (w : InstrWord) : Laws.EncodedOpcode.Statement (.custom w) := rfl

end Sys2Proof
end

