-- ==== Sys2Proof/Laws/Run.lean ====
section
/-! SUPPORT. Runs of several steps: the run unfolded once, and an induction over it packaged. -/

namespace Sys2Proof.Machine

theorem core_run_zero (s : State) : Sys2Proof.core.run 0 s = .next s := rfl

/-- A run of one step more, after a step that answers a next state. -/
theorem core_run_succ {s t : State} (h : step s = .next t) (k : Nat) :
    Sys2Proof.core.run (k + 1) s = Sys2Proof.core.run k t := by
  refine (Host.Core.run.eq_2 Sys2Proof.core s k).trans ?_
  rw [show Sys2Proof.core.step s = .next t from h]

/-- A run of one step more that answers a next state took a step that did. -/
theorem core_run_succ_next {s t : State} {k : Nat} (h : Sys2Proof.core.run (k + 1) s = .next t) :
    ∃ u, step s = .next u ∧ Sys2Proof.core.run k u = .next t := by
  have h' := (Host.Core.run.eq_2 Sys2Proof.core s k).symm.trans h
  split at h'
  · next u hu => exact ⟨u, hu, h'⟩
  · cases h'
  · cases h'

/-- What every step keeps, every run keeps. -/
theorem core_run_keeps {P : State → Prop} (hstep : ∀ s t, P s → step s = .next t → P t) {k : Nat}
    {s t : State} (h : Sys2Proof.core.run k s = .next t) (hs : P s) : P t := by
  induction k generalizing s with
  | zero =>
    rw [core_run_zero] at h
    cases h
    exact hs
  | succ k ih =>
    obtain ⟨u, hu, hr⟩ := core_run_succ_next h
    exact ih hr (hstep s u hs hu)

end Sys2Proof.Machine
end

