-- ==== Sys2Proof/Tests/Slice0.lean ====
section
/-! SUPPORT. The model's own tests, each about one step or one operation: refusals of ill-formed
terms, words written out from the spec's encodings, the vectors of spec/95_test_vectors.md (named in
each comment, common conventions N = 8 and MAXADDR = 4096), and for every statement with hypotheses a
state and operands that meet them. -/

namespace Sys2Proof.Tests

open Sys2Proof.Machine Sys2Proof.Statements

/-- What a field of the next state holds. -/
def view {α : Type} (f : State → α) : Result → Option α
  | .next t => some (f t)
  | .fault _ => none
  | .refused _ => none

/-- A core with these registers 2 to 7 and this program counter, after its first tick. -/
def core (regs : List Word) (pc : Word) : State := { State.reset with regs := regs, pc := pc, started := true }

/-- Registers, program counter and latency counter. -/
def rps (s : State) : List Word × Word × Nat := (s.regs, s.pc, s.stall)

/-- The fatal condition, if one was met. -/
def fatal (s : State) : Option FatalCondition := (faultOutput s).map Prod.snd

/-! ### Well-formed instructions (R67) -/

/-- An ADD word is not a custom instruction. -/
theorem test_wellFormed_refuses_fixed_opcode : (Instr.custom 0x04030210).wellFormed = false := by decide
theorem test_wellFormed_refuses_halt_word : (Instr.custom 0xFFFFFFFF).wellFormed = false := by decide
theorem test_wellFormed_accepts_custom : (Instr.custom 0x030002C8).wellFormed = true := by decide
/-- Opcode 3 is unassigned, hence custom (D37). -/
theorem test_wellFormed_accepts_opcode_three : (Instr.custom 0x00000003).wellFormed = true := by decide

/-! ### Words written out byte by byte (R60 to R64, R66; spec/95 L2.1, L2.4 to L2.7, L3) -/

theorem test_decode_noop : decode [0x00, 0xAB, 0xCD, 0xEF] = .ok (.noop, []) := by rfl
theorem test_decode_ld : decode [0x01, 0x02, 0x00, 0x04] = .ok (.ld 2 4, []) := by rfl
theorem test_decode_lda : decode [0x02, 0x08, 0x00, 0x03] = .ok (.lda 8 3, []) := by rfl
theorem test_decode_st : decode [0x08, 0x03, 0x02, 0x00] = .ok (.st 3 2, []) := by rfl
theorem test_decode_sta : decode [0x09, 0xCD, 0xAB, 0x07] = .ok (.sta 0xABCD 7, []) := by rfl
theorem test_decode_add : decode [0x10, 0x02, 0x03, 0x04] = .ok (.add 2 3 4, []) := by rfl
theorem test_decode_sub : decode [0x11, 0x02, 0x03, 0x02] = .ok (.sub 2 3 2, []) := by rfl
theorem test_decode_mul : decode [0x12, 0x02, 0x03, 0x04] = .ok (.mul 2 3 4, []) := by rfl
theorem test_decode_div : decode [0x13, 0x05, 0x03, 0x06] = .ok (.div 5 3 6, []) := by rfl
theorem test_decode_mod : decode [0x14, 0x03, 0x05, 0x07] = .ok (.mod 3 5 7, []) := by rfl
theorem test_decode_and : decode [0x20, 0x02, 0x03, 0x04] = .ok (.and 2 3 4, []) := by rfl
theorem test_decode_or : decode [0x21, 0x02, 0x01, 0x04] = .ok (.or 2 1 4, []) := by rfl
theorem test_decode_xor : decode [0x22, 0x02, 0x03, 0x04] = .ok (.xor 2 3 4, []) := by rfl
theorem test_decode_not : decode [0x23, 0x04, 0xEE, 0x05] = .ok (.not 4 5, []) := by rfl
theorem test_decode_jzero : decode [0x81, 0x05, 0xF8, 0xFF] = .ok (.jzero 5 (-8), []) := by rfl
theorem test_decode_jneg : decode [0x82, 0x03, 0x02, 0x00] = .ok (.jneg 3 2, []) := by rfl
theorem test_decode_jpos : decode [0x83, 0x02, 0xFE, 0xFF] = .ok (.jpos 2 (-2), []) := by rfl
theorem test_decode_halt : decode [0xFF, 0x00, 0x00, 0x00] = .ok (.halt, []) := by rfl
theorem test_decode_custom : decode [0xC8, 0x02, 0x00, 0x03] = .ok (.custom 0x030002C8, []) := by rfl

/-- The table's numbering (R58): byte 0 is bits 7 to 0. -/
theorem test_decodeTableWord : decodeTableWord 32 0x07ABCD09 = some (.sta 0xABCD 7) := by decide
theorem test_encode_words : [encode (.div 5 3 6), encode (.ld 2 4), encode (.st 3 2), encode (.lda 8 3),
    encode (.jpos 2 (-2)), encode .halt] =
    [0x06030513, 0x04000201, 0x00020308, 0x03000802, 0xFFFE0283, 0x000000FF] := by decide

/-! ### Control (NO1, HA1) -/

theorem test_noop_advances : view rps (exec .noop (core [1, 2, 3, 4, 5, 6] 0x20)) =
    some ([1, 2, 3, 4, 5, 6], 0x24, 0) := by decide
theorem test_halt_advances_and_halts : view (fun t => (t.pc, haltedOutput t))
    (exec .halt (core [0, 0, 0, 0, 0, 0] 0x0C)) = some (0x10, true) := by decide

/-! ### Loads and stores (LS1, LS3, LDA1, LDA3, ST1, ST3, STA1, STA3) -/

/-- A core whose r2 holds 0x40, with 7 at 0x40 in data memory. -/
def at40 (r2 r3 : Word) : State := { core [r2, r3, 0, 0, 0, 0] 0x18 with mem := [(0x40, 7)] }

/-- The state after an instruction issued its request and the memory interface performed it. -/
def performed (i : Instr) (s : State) : Option State :=
  (view (fun t => view (fun u => u) (memoryStep t s.nextId)) (exec i s)).getD none

theorem test_ld_loads : (performed (.ld 2 3) (at40 0x40 0)).map (fun t => (t.regs, t.pending, t.pc)) =
    some ([0x40, 7, 0, 0, 0, 0], [], 0x1C) := by decide
theorem test_ld_outOfRange : view (fun t => (fatal t, t.pc, t.inflight)) (exec (.ld 2 3) (at40 4096 0)) =
    some (some (.addressOutOfRange 4096 0x18), 0x18, []) := by decide
theorem test_lda_loads_misaligned : (performed (.lda 3 2) { core [0, 0, 0, 0, 0, 0] 8 with
    mem := Memory.write8 (Memory.write8 [] 0 0x1122334455667788) 8 0x99 }).map State.regs =
    some [0x0000991122334455, 0, 0, 0, 0, 0] := by decide
theorem test_lda_outOfRange : view fatal (exec (.lda 0xFFFF 2) (core [0, 0, 0, 0, 0, 0] 8)) =
    some (some (.addressOutOfRange 65535 8)) := by decide
theorem test_st_stores : (performed (.st 3 2) (at40 0x40 (-7))).map State.mem =
    some [(0x40, 0xF9), (0x41, 0xFF), (0x42, 0xFF), (0x43, 0xFF), (0x44, 0xFF), (0x45, 0xFF),
      (0x46, 0xFF), (0x47, 0xFF)] := by decide
theorem test_st_bound_before_value : view fatal (exec (.st 9 2) (at40 4096 0)) =
    some (some (.addressOutOfRange 4096 0x18)) := by decide
theorem test_sta_stores : (performed (.sta 16 5) (core [0, 0, 0, 15, 0, 0] 0x2C)).map State.mem =
    some [(16, 15)] := by decide
theorem test_sta_bad_value_register : view (fun t => (fatal t, t.inflight))
    (exec (.sta 16 9) (core [0, 0, 0, 0, 0, 0] 8)) =
    some (some (.registerIndexOutOfRange 9 8), []) := by decide

/-! ### ALU (L2.5, AL1, AL3, AL5, AL7, AL8, AL10) -/

/-- What a two-source instruction of r2 and r3 into r4 leaves in r4. -/
def r4Of (i : Instr) (a b : Word) : Option Word :=
  (view (fun t => t.regs[2]?) (exec i (core [a, b, 0, 0, 0, 0] 0))).getD none

theorem test_add_wraps : r4Of (.add 2 3 4) 0x7FFFFFFFFFFFFFFF 1 = some 0x8000000000000000 := by decide
theorem test_add_source_is_destination : view rps (exec (.add 2 2 2) (core [21, 0, 0, 0, 0, 0] 0x40)) =
    some ([42, 0, 0, 0, 0, 0], 0x44, 0) := by decide
theorem test_sub_wraps : r4Of (.sub 2 3 4) 0x8000000000000000 1 = some 0x7FFFFFFFFFFFFFFF := by decide
theorem test_sub_reserved_destination : view (fun t => (fatal t, rps t))
    (exec (.sub 2 3 1) (core [5, 1, 0, 0, 0, 0] 0)) =
    some (some (.reservedRegisterWrite 1 0), ([5, 1, 0, 0, 0, 0], 0, 0)) := by decide
theorem test_mul_signed : r4Of (.mul 2 3 4) (-3) 7 = some (-21) := by decide
theorem test_mul_sets_latency : view rps (exec (.mul 2 3 4) { core [6, 7, 0, 0, 0, 0] 0 with
    params := { maxAddr := 4096, lat := [(18, 3)] } }) = some ([6, 7, 42, 0, 0, 0], 4, 3) := by decide
theorem test_div_truncates : r4Of (.div 2 3 4) (-7) 2 = some (-3) := by decide
theorem test_div_by_zero_before_destination : view fatal (exec (.div 2 3 1) (core [5, 0, 0, 0, 0, 0] 0)) =
    some (some (.divideByZero 0)) := by decide
theorem test_mod_sign_of_dividend : r4Of (.mod 2 3 4) (-7) 6 = some (-1) := by decide
theorem test_mod_overflow : view fatal
    (exec (.mod 2 3 4) (core [0x8000000000000000, -1, 0, 0, 0, 0] 0)) =
    some (some (.divideOverflow 0)) := by decide
theorem test_and : r4Of (.and 2 3 4) 0xFFFFFFFF00000000 0x00FF00FF00FF00FF = some 0x00FF00FF00000000 := by
  decide
theorem test_or : r4Of (.or 2 3 4) 0x0F0F 0x00FF = some 0x0FFF := by decide
theorem test_or_copies_over_r1 : r4Of (.or 2 1 4) 0x1234 9 = some 0x1234 := by decide
theorem test_xor : r4Of (.xor 2 3 4) 0xFFFFFFFF00000000 0x00FF00FF00FF00FF =
    some (-71777218556133121) := by decide
theorem test_xor_first_bad_source : view fatal (exec (.xor 9 10 11) (core [0, 0, 0, 0, 0, 0] 0)) =
    some (some (.registerIndexOutOfRange 9 0)) := by decide
theorem test_not : r4Of (.not 2 4) (-7) 0 = some 6 := by decide

/-! ### Jumps (JP1, JP2, JP6, JP8, JP9, JP10, JP15) -/

theorem test_jzero_taken : view State.pc (exec (.jzero 5 (-8)) (core [0, 0, 0, 0, 0, 0] 0x100)) =
    some 0xE0 := by decide
theorem test_jzero_not_taken : view State.pc (exec (.jzero 5 (-8)) (core [0, 0, 0, -1, 0, 0] 0x100)) =
    some 0x104 := by decide
theorem test_jneg_most_negative : view State.pc
    (exec (.jneg 3 2) (core [0, 0x8000000000000000, 0, 0, 0, 0] 0x40)) = some 0x48 := by decide
theorem test_jneg_zero : view State.pc (exec (.jneg 3 2) (core [0, 0, 0, 0, 0, 0] 0x40)) =
    some 0x44 := by decide
theorem test_jpos_taken : view State.pc (exec (.jpos 2 (-2)) (core [4, 0, 0, 0, 0, 0] 0x28)) =
    some 0x20 := by decide
theorem test_jpos_zero : view State.pc (exec (.jpos 2 (-2)) (core [0, 0, 0, 0, 0, 0] 0x28)) =
    some 0x2C := by decide

/-! ### Custom instructions (L1.3, CU1, CU3) -/

/-- The fixture INC3 of L1.3 for r2 = 41 at address 12: claims 200, writes r3, is busy for three
steps. -/
def inc3 : Handler where
  ext := 0
  claims := [200]
  state := { busy := false, data := 0 }
  execs := [{ before := { busy := false, data := 0 }, word := 0x030002C8
              view := { pc := 12, regs := [12, 0, 41, 0, 0, 0, 0, 0] }
              reply := { state := { busy := true, data := 3 }, status := 0, actions := [.write 3 42] } }]
  steps := [{ before := { busy := true, data := 3 }, after := { busy := true, data := 2 }, actions := [] },
            { before := { busy := true, data := 2 }, after := { busy := true, data := 1 }, actions := [] },
            { before := { busy := true, data := 1 }, after := { busy := false, data := 0 }, actions := [] }]

def withInc3 : State := { core [41, 0, 0, 0, 0, 0] 12 with handlers := [inc3] }

theorem test_custom_executes : view (fun t => (rps t, anyBusy t)) (exec (.custom 0x030002C8) withInc3) =
    some (([41, 42, 0, 0, 0, 0], 16, 0), true) := by decide
theorem test_custom_unclaimed : view (fun t => (fatal t, rps t))
    (exec (.custom 0x000000C8) (core [0, 0, 0, 0, 0, 0] 0x18)) =
    some (some (.unknownInstruction 0x000000C8 0x18 none), ([0, 0, 0, 0, 0, 0], 0x18, 0)) := by decide

/-- A load that fails its check ends a handler's actions after HALT (log 22), one that passes does not. -/
theorem test_afterHalt_load_check : (applyAfterHalt (core [0, 0, 0, 0, 0, 0] 8)
    [.load 4095 3, .write 2 1, .load 4096 3, .write 2 9]).regs = [1, 0, 0, 0, 0, 0] := by decide
/-- D31: of 300 registers a handler is shown 256. -/
theorem test_coreView_shows_256 (regs : List Word) (h : regs.length = 298) :
    (coreView (core regs 8)).regs.length = 256 := by simp [coreView, core, h]

/-! ### The schedule -/

/-- Events over and over: a tick, then the performance of request 0 (log 4). -/
theorem test_repeating_schedule : (nextEvent { State.reset with later := .repeating [.tick, .memory 0] },
    nextEvent (popEvent { State.reset with later := .repeating [.tick, .memory 0] })) =
    (.tick, .memory 0) := by decide

/-- INC3 launched busy, with its internal step listed first: no step before the first tick, which
stalls (R135), and a step then (log 23). -/
def busyLaunch : State := { withInc3 with
  handlers := [{ inc3 with state := { busy := true, data := 1 } }]
  agenda := [.handler 0 0, .tick, .handler 0 0], started := false }

theorem test_handler_before_first_tick : view (fun t => (anyBusy t, t.started)) (step busyLaunch) =
    some (true, false) := by decide
theorem test_first_tick_stalls : view (fun t => (t.pc, anyBusy t, t.started))
    (step { busyLaunch with agenda := [.tick] }) = some (12, true, true) := by decide

/-! ### The step after reset -/

/-- The word placed by `withFetchWord` is the one the next step runs. -/
theorem test_step_runs_placed_word : view rps (step (State.reset.withFetchWord 32 0x04030210)) =
    some ([0, 0, 0, 0, 0, 0], 4, 0) := by decide
theorem test_step_runs_placed_halt : view haltedOutput (step (State.reset.withFetchWord 32 0xFF)) =
    some true := by decide
/-- FE7: an empty image faults at its first fetch. -/
theorem test_reset_fetches_nothing : view fatal (step State.reset) = some (some (.fetchOutOfRange 0)) := by
  decide

/-! ### Construction (P1's file, FE2, FE5) -/

def le8 (n : Nat) : List Byte := bytesOf (BitVec.ofNat 64 n)

def p1 : Launch := { Launch.atReset with
  file := le8 0 ++ le8 8 ++ le8 8 ++ le8 42 ++ [0x02, 0, 0, 0x02, 0xFF, 0, 0, 0] }

theorem test_construct_p1 : view (fun t => (t.pc, t.mem, t.image.body.length)) (construct p1) =
    some (8, [(0, 42), (8, 2), (11, 2), (12, 255)], 16) := by decide
theorem test_construct_short_image : view fatal (construct { Launch.atReset with
    file := le8 0 ++ le8 8 ++ le8 8 ++ List.replicate 12 0 }) =
    some (some (.imageMalformed 8 8 36)) := by decide

/-! ### Witnesses: a state and operands that meet the hypotheses of each statement -/

/-- A running core with eight registers, MAXADDR 4096, and one request in flight of each kind: a read
into r7 under identifier 3, its eight bytes ending at MAXADDR, and a write under identifier 5. -/
def busyCore : State := { core [1, 2, 3, 4, 5, 6] 8 with
  pending := [(3, some 7), (5, none)]
  inflight := [{ id := 3, addr := 4088, kind := .read }, { id := 5, addr := 0, kind := .write 9 }]
  mem := [(0, 1), (4095, 2)]
  nextId := 6 }

/-- A core about to issue, with nothing pending. -/
def idle : State := core [0x40, 4096, 4088, 4089, 5, 6] 0x18

/-- A core with a body of 16 bytes, at pc 8, where a HALT stands; a JPOS stands at 12. -/
def haltingCore : State := { core [0, 0, 0, 0, 0, 0] 8 with
  image := { dataLength := 8, instLength := 8, body :=
    [0, 0, 0, 0, 0, 0, 0, 0, 0xFF, 0, 0, 0, 0x83, 2, 0xFE, 0xFF] } }

theorem wit_DecodeEncodeRoundTrip : (Instr.custom 0xFFFFFFFE).wellFormed = true ∧
    (Instr.sta 0xFFFF 255).wellFormed = true := by decide
theorem wit_DecodingIsTotal : ([] : List Byte).length < 4 ∧ ([0xFF, 0, 0] : List Byte).length < 4 := by
  decide
theorem wit_IgnoredFieldsDoNotMatter : byteOfWord 0x05EE0423 0 = byteOfWord 0x05000423 0 ∧
    (0x05EE0423 : InstrWord) &&& usedBits (byteOfWord 0x05EE0423 0) =
      0x05000423 &&& usedBits (byteOfWord 0x05EE0423 0) := by decide
theorem wit_RegisterReadRule_last : 2 ≤ (7 : Byte).toNat ∧ idle.regs[(7 : Byte).toNat - 2]? = some 6 := by
  decide
theorem wit_RegisterReadRule_out : 2 ≤ (8 : Byte).toNat ∧ idle.n ≤ (8 : Byte).toNat := by decide
/-- RF10: with N = 2 every index above 1 is out of range. -/
theorem wit_RegisterReadRule_smallest : (core [] 0).n ≤ (2 : Byte).toNat := by decide
theorem wit_RegisterWriteRule : (1 : Byte).toNat < 2 ∧ idle.n ≤ (8 : Byte).toNat ∧ Writable idle 2 ∧
    Writable idle 7 := by decide
theorem wit_WrittenRegisterReadsBack : writeReg idle 7 9 =
    .ok (idle.setRegs [0x40, 4096, 4088, 4089, 5, 9]) := by rfl
theorem wit_PendingTableIsAMap : busyCore.pending.Pairwise fun q r => q.1 < r.1 := by decide
theorem wit_ReadAfterWrite : busyCore.mem.wf = true ∧ (4080 + 8 ≤ 4088 ∨ 4088 + 8 ≤ 4080) ∧
    (4096 + 8 ≤ 4088 ∨ 4088 + 8 ≤ 4096) := by decide
theorem wit_MemoryIsCanonical : busyCore.mem.wf = true ∧ 2 ^ 64 - 8 + 8 ≤ 2 ^ 64 ∧
    ∀ a, busyCore.mem.get a = busyCore.mem.get a := ⟨by decide, by decide, fun _ => rfl⟩
theorem wit_FetchRule_bound : ¬ (4096 : Word) < haltingCore.params.maxAddr := by decide
theorem wit_FetchRule_body : haltingCore.image.body.length < (13 : Word).toNat + 4 := by decide
theorem wit_FetchRule_word : (12 : Word) < haltingCore.params.maxAddr ∧
    haltingCore.image.body[(12 : Word).toNat]? = some 0x83 ∧
    haltingCore.image.body[(12 : Word).toNat + 1]? = some 2 ∧
    haltingCore.image.body[(12 : Word).toNat + 2]? = some 0xFE ∧
    haltingCore.image.body[(12 : Word).toNat + 3]? = some 0xFF := by decide

/-- The same core with another destination under identifier 3. -/
def busyInto (d : Byte) : State := { busyCore with pending := [(3, some d), (5, none)] }

def theRead : Request := { id := 3, addr := 4088, kind := .read }
def theWrite : Request := { id := 5, addr := 0, kind := .write 9 }

theorem wit_PerformedRequest_read : busyCore.run = .running ∧ busyCore.mem.wf = true ∧
    (busyCore.inflight.find? fun q => q.id == theRead.id) = some theRead ∧
    busyCore.pending.find theRead.id = some (some 7) ∧
    theRead.addr.toNat + 8 ≤ busyCore.params.maxAddr.toNat ∧ Writable busyCore 7 := by decide
theorem wit_PerformedRequest_event :
    nextEvent { busyCore with agenda := [.memory 3] } = .memory 3 ∧ busyCore.started = true ∧
    nextEvent { State.reset with agenda := [.memory 3] } = .memory 3 ∧
    State.reset.started = false := by decide
theorem wit_PerformedRequest_reserved : (busyInto 1).pending.find theRead.id = some (some 1) ∧
    (1 : Byte).toNat < 2 ∧ (busyInto 1).run = .running ∧
    ((busyInto 1).inflight.find? fun q => q.id == theRead.id) = some theRead := by decide
theorem wit_PerformedRequest_outOfRange : (busyInto 8).pending.find theRead.id = some (some 8) ∧
    (busyInto 8).n ≤ (8 : Byte).toNat ∧ (busyInto 8).run = .running ∧
    ((busyInto 8).inflight.find? fun q => q.id == theRead.id) = some theRead := by decide
theorem wit_PerformedRequest_write : busyCore.run = .running ∧ busyCore.mem.wf = true ∧
    (busyCore.inflight.find? fun q => q.id == theWrite.id) = some theWrite ∧
    busyCore.pending.find theWrite.id = some none ∧
    theWrite.addr.toNat + 8 ≤ busyCore.params.maxAddr.toNat ∧ theWrite.kind = .write 9 := by decide

/-- LS6: a load at 4089 has been issued. -/
def crossing : State := { idle with
  pending := [(0, some 3)], inflight := [{ id := 0, addr := 4089, kind := .read }], nextId := 1
  agenda := [.tick, .memory 0, .tick] }

theorem wit_CrossingRequestStallsForEver : crossing.Inv ∧ crossing.FixedOnly ∧ crossing.run = .running ∧
    { id := 0, addr := 4089, kind := .read } ∈ crossing.inflight ∧
    crossing.params.maxAddr.toNat < (4089 : Word).toNat + 8 ∧
    crossing.Dutiful :=
  ⟨by decide, by decide, by decide, by decide, by decide,
    by simp [crossing, State.Dutiful, DutifulEvent, idle, core, State.reset]⟩
theorem wit_CrossingRequestStallsForEver_run :
    ∃ t, Sys2Proof.core.run 3 crossing = .next t := ⟨_, rfl⟩

theorem wit_TickTransitionRule_ended : nextEvent { idle with run := .halted } = .tick ∧
    ({ idle with run := .halted } : State).run ≠ .running := by decide
theorem wit_TickTransitionRule_latency : nextEvent { idle with stall := 1 } = .tick ∧
    0 < ({ idle with stall := 1 } : State).stall ∧ idle.run = .running := by decide
theorem wit_TickTransitionRule_memory : nextEvent crossing = .tick ∧ crossing.stall = 0 ∧
    crossing.run = .running ∧ crossing.pending ≠ [] := by decide
theorem wit_TickTransitionRule_handler :
    let s : State := { withInc3 with
      handlers := [{ inc3 with state := { busy := true, data := 3 } }], agenda := [.tick] }
    nextEvent s = .tick ∧ s.run = .running ∧ s.stall = 0 ∧ ∃ h ∈ s.handlers, h.state.busy = true := by
  decide

theorem wit_StepRunsTheDecodedInstruction : nextEvent haltingCore = .tick ∧ GatesOpen haltingCore ∧
    haltingCore.pc < haltingCore.params.maxAddr ∧
    decode (haltingCore.image.body.drop haltingCore.pc.toNat) = .ok (.halt, [0x83, 2, 0xFE, 0xFF]) :=
  ⟨by decide, by decide, by decide, rfl⟩
/-- FE6: the fetch at 12 with MAXADDR 12, and the fetch of a word that ends outside the body. -/
theorem wit_FetchFaultEndsTheRun :
    let s : State := { haltingCore with pc := 12, params := { maxAddr := 12, lat := [] } }
    let u : State := { haltingCore with pc := 13 }
    (nextEvent s = .tick ∧ GatesOpen s ∧ ¬ s.pc < s.params.maxAddr) ∧
    nextEvent u = .tick ∧ GatesOpen u ∧ u.image.body.length < u.pc.toNat + 4 := by decide
theorem wit_LatencyStallsFetch :
    let s : State := { idle with stall := 2, agenda := [.tick, .tick, .memory 0] }
    s.run = .running ∧ s.agenda = List.replicate s.stall .tick ++ [.memory 0] := by decide
theorem wit_NoFetchWhileRequestPending :
    let s : State := { busyCore with agenda := [.tick, .tick, .memory 3] }
    s.run = .running ∧ s.stall = 0 ∧ s.pending ≠ [] ∧
    s.agenda = List.replicate 2 .tick ++ [.memory 3] := by decide
/-- I5: no completion is delivered at all. -/
theorem wit_NoFetchWhileRequestPending_forEver :
    let s : State := { busyCore with later := .repeating [.tick] }
    s.run = .running ∧ s.stall = 0 ∧ s.pending ≠ [] ∧ s.agenda = [] ∧
    s.later = .repeating [.tick] := by decide
theorem wit_OnlyAluSetsLatency : opClass (Instr.jpos 2 1).opcode ≠ .alu ∧
    exec (.jpos 2 1) idle = .next { idle with pc := 0x1C } := ⟨by decide, rfl⟩

/-! #### Loads and stores: r2 = 0x40, r3 = MAXADDR, r4 = the last address whose eight bytes fit, r5 =
the first whose do not -/

theorem wit_LdEffect_badAddress : readReg idle 8 = .error (.registerIndexOutOfRange 8 0x18) := rfl
theorem wit_LdEffect_bound : readReg idle 3 = .ok 4096 ∧ ¬ (4096 : Word) < idle.params.maxAddr :=
  ⟨rfl, by decide⟩
theorem wit_LdEffect_issue : readReg idle 5 = .ok 4089 ∧ (4089 : Word) < idle.params.maxAddr :=
  ⟨rfl, by decide⟩
theorem wit_LdEffect_complete : readReg idle 4 = .ok 4088 ∧ idle.run = .running ∧ idle.pending = [] ∧
    idle.inflight = [] ∧ (4088 : Word).toNat + 8 ≤ idle.params.maxAddr.toNat ∧ Writable idle 7 ∧
    (1 : Byte).toNat < 2 ∧ idle.n ≤ (8 : Byte).toNat := ⟨rfl, by decide⟩
theorem wit_LdaEffect : (4088 : Word) = BitVec.ofNat 64 (4088 : Half).toNat ∧
    (4088 : Word) < idle.params.maxAddr ∧ (4088 : Word).toNat + 8 ≤ idle.params.maxAddr.toNat ∧
    (4096 : Word) = BitVec.ofNat 64 (4096 : Half).toNat ∧ ¬ (4096 : Word) < idle.params.maxAddr := by
  decide
theorem wit_StEffect : readReg idle 4 = .ok 4088 ∧ (4088 : Word) < idle.params.maxAddr ∧
    readReg idle 8 = .error (.registerIndexOutOfRange 8 0x18) ∧ readReg idle 0 = .ok 0x18 ∧
    idle.mem.wf = true ∧ (4088 : Word).toNat + 8 ≤ idle.params.maxAddr.toNat :=
  ⟨rfl, by decide, rfl, rfl, by decide⟩
theorem wit_StaEffect : (4088 : Word) = BitVec.ofNat 64 (4088 : Half).toNat ∧ idle.run = .running ∧
    idle.pending = [] ∧ idle.inflight = [] ∧ idle.mem.wf = true ∧ readReg idle 0 = .ok 0x18 :=
  ⟨by decide, by decide, by decide, by decide, by decide, rfl⟩
theorem wit_CompletionRule_load : busyCore.run = .running ∧
    busyCore.pending.find 3 = some (some 7) ∧ Writable busyCore 7 ∧
    (busyInto 1).pending.find 3 = some (some 1) ∧ (busyInto 8).pending.find 3 = some (some 8) ∧
    (busyInto 8).n ≤ (8 : Byte).toNat := by decide
theorem wit_CompletionRule_other : busyCore.pending.find 5 = some none ∧
    busyCore.pending.find 77 = none ∧ ({ busyCore with run := .halted } : State).run ≠ .running := by
  decide
/-- CP1. -/
theorem wit_StrayCompletionIsFatal :
    let s : State := { busyCore with agenda := [.stray 77 1] }
    nextEvent s = .stray 77 1 ∧ s.run = .running ∧ s.pending.find 77 = none ∧ s.started = true := by
  decide

/-! #### ALU and jumps -/

theorem wit_AluEffect : readReg idle 8 = .error (.registerIndexOutOfRange 8 0x18) ∧
    readReg idle 0 = .ok 0x18 ∧ readReg idle 1 = .ok 0 ∧ readReg idle 7 = .ok 6 ∧ Writable idle 2 ∧
    Writable idle 7 ∧ (1 : Byte).toNat < 2 ∧ idle.n ≤ (8 : Byte).toNat :=
  ⟨rfl, rfl, rfl, rfl, by decide⟩
theorem wit_DivModEffect : divideFatal 0x18 5 0 = some (.divideByZero 0x18) ∧
    divideFatal 0x18 0x8000000000000000 (-1) = some (.divideOverflow 0x18) ∧
    divideFatal 0x18 0x8000000000000000 1 = none := by decide
theorem wit_DivisionLaw : divideFatal 0 0x8000000000000000 (-2) = none ∧
    divideFatal 0 0x7FFFFFFFFFFFFFFF (-1) = none := by decide
theorem wit_ConditionalJumpEffect : readReg idle 1 = .ok 0 ∧ (0 : Word) = 0 ∧ ¬ (0 : Word).toInt < 0 ∧
    ¬ 0 < (0 : Word).toInt ∧ (0x8000000000000000 : Word).toInt < 0 ∧ 0 < (1 : Word).toInt :=
  ⟨rfl, by decide⟩
theorem wit_JumpNeverFaultsOnItsTarget : readReg idle 0 = .ok 0x18 ∧
    (Instr.jneg 0 0x8000) ∈ ([.jzero 0 0x8000, .jneg 0 0x8000, .jpos 0 0x8000] : List Instr) :=
  ⟨rfl, by decide⟩

/-! #### Custom instructions -/

/-- H_S of CU4: status 5 after a register write. H_W of CU6: a write of register 1 after one of r2. -/
def failing (acts : List Action) (status : Int) : Handler where
  ext := 1
  claims := [200, 201]
  state := { busy := false, data := 0 }
  execs := [{ before := { busy := false, data := 0 }, word := 0x000000C9
              view := { pc := 0x18, regs := [0x18, 0, 0, 0, 0, 0, 0, 0] }
              reply := { state := { busy := false, data := 1 }, status := status, actions := acts } }]
  steps := []

def withFailing (acts : List Action) (status : Int) : State :=
  { core [0, 0, 0, 0, 0, 0] 0x18 with handlers := [inc3, failing acts status] }

theorem wit_ClaimedCustomEffect :
    FirstClaimant withInc3 (byteOfWord 0x030002C8 0) 0 inc3 ∧
    inc3.execute 0x030002C8 (viewOf withInc3) =
      { state := { busy := true, data := 3 }, status := 0, actions := [.write 3 42] } ∧
    applyActions (executed withInc3 0 inc3
        { state := { busy := true, data := 3 }, status := 0, actions := [.write 3 42] })
      withInc3.pc [.write 3 42] =
      ({ withInc3 with
          regs := [41, 42, 0, 0, 0, 0]
          handlers := [{ inc3 with state := { busy := true, data := 3 } }] }, 12, none) :=
  ⟨⟨rfl, by decide, fun j hj => absurd hj (by omega)⟩, rfl, rfl⟩

/-- The second handler of the registry is the first that claims 201. -/
theorem firstClaimant_failing (acts : List Action) (status : Int) :
    FirstClaimant (withFailing acts status) (byteOfWord 0x000000C9 0) 1 (failing acts status) := by
  refine ⟨rfl, (by decide : byteOfWord 0x000000C9 0 ∈ ([200, 201] : List Byte)), fun j hj g hg => ?_⟩
  have h0 : j = 0 := by omega
  subst h0
  cases hg
  exact (by decide : byteOfWord 0x000000C9 0 ∉ inc3.claims)

theorem wit_ClaimedCustomEffect_status :
    FirstClaimant (withFailing [.write 2 9] 5) (byteOfWord 0x000000C9 0) 1 (failing [.write 2 9] 5) ∧
    ((failing [.write 2 9] 5).execute 0x000000C9 (viewOf (withFailing [.write 2 9] 5))).status ≠ 0 ∧
    (applyActions (withFailing [.write 2 9] 5) 0x18 [.write 2 9]).2.2 = none :=
  ⟨firstClaimant_failing _ _, by decide, by decide⟩
theorem wit_CustomActionFault :
    let s := withFailing [.write 2 9, .write 1 0] 0
    let h := failing [.write 2 9, .write 1 0] 0
    FirstClaimant s (byteOfWord 0x000000C9 0) 1 h ∧
    (applyActions (executed s 1 h (h.execute 0x000000C9 (viewOf s))) s.pc
      (h.execute 0x000000C9 (viewOf s)).actions).2.2 = some (.reservedRegisterWrite 1 0x18) :=
  ⟨firstClaimant_failing _ _, by decide⟩
theorem wit_UnclaimedCustomIsFatal :
    ∀ h ∈ withInc3.handlers, byteOfWord 0x000000CA 0 ∉ h.claims := by decide
theorem wit_HandlerActionsAreChecked : readReg idle 7 = .ok 6 ∧
    readReg idle 8 = .error (.registerIndexOutOfRange 8 0x18) ∧
    writeReg idle 7 9 = .ok (idle.setRegs [0x40, 4096, 4088, 4089, 5, 9]) ∧
    writeReg idle 1 9 = .error (.reservedRegisterWrite 1 0x18) ∧
    issueLoad idle 4095 1 = .ok (sendRequest idle 4095 .read (some 1)) ∧
    issueLoad idle 4096 1 = .error (.addressOutOfRange 4096 0x18) ∧
    issueStore idle 4095 0 = .ok (sendRequest idle 4095 (.write 0x18) none) ∧
    issueStore idle 4095 8 = .error (.registerIndexOutOfRange 8 0x18) :=
  ⟨rfl, rfl, rfl, rfl, rfl, rfl, rfl, rfl⟩
theorem wit_HandlerActionsFrame : applyActions idle 0x18 [.write 7 9, .setPC 0x40, .read 8] =
    (idle.setRegs [0x40, 4096, 4088, 4089, 5, 9], 0x40, some (.registerIndexOutOfRange 8 0x18)) := rfl

/-- A handler whose one internal step acts. -/
def acting (acts : List Action) : Handler where
  ext := 2
  claims := []
  state := { busy := true, data := 1 }
  execs := []
  steps := [{ before := { busy := true, data := 1 }, after := { busy := false, data := 0 },
              actions := acts }]

theorem wit_HandlerStepEffect (acts : List Action)
    (h : acts = [.write 7 9] ∨ acts = [.setPC 0x40, .write 0 1]) :
    ({ idle with handlers := [inc3, acting acts] } : State).run = .running ∧
    ({ idle with handlers := [inc3, acting acts] } : State).handlers[1]? = some (acting acts) ∧
    (acting acts).stepChoice 0 = some ({ busy := false, data := 0 }, acts) := by
  rcases h with rfl | rfl <;> exact ⟨rfl, rfl, rfl⟩
theorem wit_HandlerStepEffect_event : nextEvent busyLaunch = .handler 0 0 ∧
    busyLaunch.started = false ∧ ({ busyLaunch with started := true } : State).started = true := by
  decide
theorem wit_HandlerStepEffect_both : (applyActions idle idle.pc [.write 7 9]).2.2 = none ∧
    (applyActions idle idle.pc [.setPC 0x40, .write 0 1]).2.2 =
      some (.reservedRegisterWrite 0 0x18) := by decide

/-! #### Fatal conditions, the end of a run and whole-machine rules -/

theorem wit_FaultIsTerminal :
    let s : State := { idle with run := .faulted (.divideByZero 0x18), agenda := [.memory 0] }
    s.run = .faulted (.divideByZero 0x18) ∧ ∃ t, step s = .next t := ⟨rfl, _, rfl⟩
theorem wit_FixedInstructionFaultsArePrecise : (∀ w, Instr.ld 3 2 ≠ .custom w) ∧ idle.run = .running ∧
    exec (.ld 3 2) idle = .next { idle with run := .faulted (.addressOutOfRange 4096 0x18) } :=
  ⟨fun _ => Instr.noConfusion, rfl, rfl⟩
theorem wit_EndedRunNeverChanges :
    let s : State := { idle with run := .halted, agenda := [.tick] }
    s.run ≠ .running ∧ step s = .next { idle with run := .halted } := ⟨by decide, rfl⟩
theorem wit_LaunchConfigurationNeverChanges :
    step State.reset =
      .next { State.reset with run := .faulted (.fetchOutOfRange 0), started := true } := rfl
theorem wit_OnlyPerformedWritesChangeMemory :
    let s : State := { busyCore with agenda := [.memory 5] }
    s.mem.wf = true ∧ view State.mem (step s) = some [(0, 9), (4095, 2)] := by decide
theorem wit_RegisterWriters_fixed : opClass (Instr.ld 2 3).opcode ≠ .alu ∧
    (∀ w, Instr.ld 2 3 ≠ .custom w) ∧ ∃ t, exec (.ld 2 3) idle = .next t :=
  ⟨by decide, fun _ => Instr.noConfusion, _, rfl⟩
theorem wit_RegisterWriters_load :
    let s : State := { busyCore with agenda := [.memory 3] }
    view State.regs (step s) = some [1, 2, 3, 4, 5, 0x0200000000000000] := by decide
theorem wit_RegisterWriters_alu : view State.regs
    (step ({ idle with regs := [1, 2, 0, 0, 0, 0] }.withFetchWord 32 0x04030210)) =
    some [1, 2, 3, 0, 0, 0] := by decide
theorem wit_PcStaysAligned : haltingCore.handlers = [] ∧ haltingCore.pc.toNat % 4 = 0 ∧
    view State.pc (step haltingCore) = some 12 := by decide
theorem wit_ConstructStartsTheCore :
    let l : Launch := { Launch.atReset with
      n := 2
      file := le8 7 ++ le8 3 ++ le8 4 ++ [0xAA, 0xBB, 0xCC, 0xFF, 0, 0, 0] ++ [1, 2] }
    2 ≤ l.n ∧ (l.handlers.map Handler.ext).Nodup ∧ l.initRegs = [] ∧ l.initMem.wf = true ∧
    (le8 7).length = 8 ∧ (le8 3).length = 8 ∧ (le8 4).length = 8 ∧
    ([0xAA, 0xBB, 0xCC, 0xFF, 0, 0, 0] : List Byte).length = leNat (le8 3) + leNat (le8 4) := by decide
/-- FE2. -/
theorem wit_ShortImageIsMalformed :
    2 ≤ Launch.atReset.n ∧ (Launch.atReset.handlers.map Handler.ext).Nodup ∧ (le8 8).length = 8 ∧
    (List.replicate 15 (0 : Byte)).length < leNat (le8 8) + leNat (le8 8) := by decide
theorem wit_PreloadRule : Writable State.reset 7 ∧ ¬ Writable State.reset 8 ∧
    ¬ Writable State.reset 1 := by decide
theorem wit_ConstructHasInvariant : p1.initMem.wf = true ∧ p1.file.length + 8 ≤ 2 ^ 64 ∧
    (view haltedOutput (construct p1)).isSome = true := by decide
theorem wit_StepKeepsInvariant : busyCore.Inv ∧ crossing.Inv ∧ haltingCore.Inv ∧
    (view State.pc (step busyCore)).isSome = true :=
  ⟨by decide, by decide, by decide, by decide⟩
theorem wit_FixedInstructionsKeepOneRequest : crossing.FixedOnly ∧ haltingCore.FixedOnly ∧
    (view State.pc (step crossing)).isSome = true := by decide

/-- The same core under another agenda, latency table and latency counter. -/
def haltingLate : State := { haltingCore with
  agenda := [.tick, .tick, .handler 0 0, .tick], later := .free 1 0, stall := 2
  params := { maxAddr := 4096, lat := [(16, 2)] } }

theorem wit_ScheduleAndLatencyDoNotMatter : haltingCore.Inv ∧ haltingCore.FixedOnly ∧
    haltingLate = { haltingCore with
      agenda := haltingLate.agenda
      later := haltingLate.later
      stall := haltingLate.stall
      params := { haltingCore.params with lat := haltingLate.params.lat } } ∧
    ∃ t₁ t₂, Sys2Proof.core.run 1 haltingCore = .next t₁ ∧ Sys2Proof.core.run 4 haltingLate = .next t₂ ∧
      t₁.run = .halted ∧ t₂.run = .halted :=
  ⟨by decide, by decide, rfl, _, _, rfl, rfl, rfl, rfl⟩

end Sys2Proof.Tests
end

section
/-! PROOFS. The statements about the state (10_state.md): what every step keeps, registers, the table
and the launch. Each is assembled from the inversion lemmas of Laws/, one lemma per agent. -/

namespace Sys2Proof.Machine

/-! ### The invariant under single updates (R34) -/

/-- The invariant speaks of no register. -/
@[simp] theorem inv_setRegs {s : State} {x : List Word} : (s.setRegs x).Inv ↔ s.Inv := Iff.rfl

/-- Nor of the program counter. -/
@[simp] theorem inv_setPc {s : State} {x : Word} : (s.setPc x).Inv ↔ s.Inv := Iff.rfl

@[simp] theorem inv_setStarted {s : State} {x : Bool} : (s.setStarted x).Inv ↔ s.Inv := Iff.rfl

@[simp] theorem inv_setHandlerState {s : State} {i : Nat} {st : HandlerState} :
    (setHandlerState s i st).Inv ↔ s.Inv := Iff.rfl

@[simp] theorem inv_popEvent {s : State} : (popEvent s).Inv ↔ s.Inv := Iff.rfl

theorem State.Inv.mem_wf {s : State} (h : s.Inv) : s.mem.wf = true := by
  obtain ⟨hmem, -⟩ := h
  exact hmem

theorem State.Inv.stall_le {s : State} (h : s.Inv) : s.stall ≤ maxAluLatency s.params := by
  obtain ⟨-, -, -, -, -, hstall, -⟩ := h
  exact hstall

/-- A raise keeps the invariant: of a faulted core it asks no more than of any other (R138). -/
theorem State.Inv.raised {s : State} (h : s.Inv) (c : FatalCondition) :
    (s.setRun (.faulted c)).Inv := by
  obtain ⟨hmem, himg, hpend, hfl, -, hstall, -⟩ := h
  exact ⟨hmem, himg, hpend, hfl, nofun, hstall, nofun⟩

theorem State.Inv.setMem {s : State} (h : s.Inv) {m : Memory} (hm : m.wf = true) :
    (s.setMem m).Inv := by
  obtain ⟨-, himg, hpend, hfl, hwait, hstall, hhalt⟩ := h
  exact ⟨hm, himg, hpend, hfl, hwait, hstall, hhalt⟩

/-- A running core may hold any latency within the table (R26). -/
theorem State.Inv.setStall {s : State} (h : s.Inv) (hr : s.run = .running) {n : Nat}
    (hn : n ≤ maxAluLatency s.params) : (s.setStall n).Inv := by
  obtain ⟨hmem, himg, hpend, hfl, hwait, -, -⟩ := h
  exact ⟨hmem, himg, hpend, hfl, hwait, hn, fun hh => by simp [hr] at hh⟩

/-- A core with nothing pending and no latency may halt (R163). -/
theorem State.Inv.halted {s : State} (h : s.Inv) (hp : s.pending = []) (hs : s.stall = 0) :
    (s.setRun .halted).Inv := by
  obtain ⟨hmem, himg, hpend, hfl, -, hstall, -⟩ := h
  exact ⟨hmem, himg, hpend, hfl, nofun, hstall, fun _ => ⟨hp, hs⟩⟩

/-- Sending a request with its entry keeps the table and the requests in flight in agreement, for the
identifier is fresh (R57, R93, R94). -/
theorem State.Inv.sendRequest {s : State} (h : s.Inv) (hr : s.run = .running) {a : Word}
    {k : RequestKind} {e : Option Byte} (ha : a < s.params.maxAddr)
    (he : e.isSome = true ↔ k = .read) : (sendRequest s a k e).Inv := by
  obtain ⟨hmem, himg, ⟨hrise, hfresh⟩, ⟨hdist, hentry⟩, hwait, hstall, -⟩ := h
  have hpend : (Machine.sendRequest s a k e).pending = s.pending ++ [(s.nextId, e)] :=
    Pending.insert_fresh hfresh e
  have hold : ∀ r ∈ s.inflight, r.id < s.nextId := fun r hr => by
    obtain ⟨-, p, hp, hpr, -⟩ := hentry r hr
    exact hpr ▸ hfresh p hp
  refine ⟨hmem, himg, ⟨Pending.insert_rising hrise _ _, ?_⟩, ⟨?_, ?_⟩, ?_, hstall, ?_⟩
  · intro p hp
    rcases Pending.mem_insert hp with rfl | hp
    · exact Nat.lt_succ_self _
    · exact Nat.lt_succ_of_lt (hfresh p hp)
  · simpa [List.pairwise_append, hdist] using hold
  · rw [hpend, sendRequest_inflight]
    simp only [List.mem_append, List.mem_singleton]
    rintro r (hr | rfl)
    · obtain ⟨hlt, p, hp, hpr⟩ := hentry r hr
      exact ⟨hlt, p, .inl hp, hpr⟩
    · exact ⟨ha, _, .inr rfl, rfl, he⟩
  · intro _ p hp
    rw [hpend] at hp
    simp only [sendRequest_inflight, List.mem_append, List.mem_singleton] at hp ⊢
    rcases hp with hp | rfl
    · obtain ⟨r, hrs, hrp⟩ := hwait hr p hp
      exact ⟨r, .inl hrs, hrp⟩
    · exact ⟨_, .inr rfl, rfl⟩
  · intro hh
    simp [hr] at hh

/-- The requests in flight but for identifier `id`, as a performance leaves them (R44). -/
def State.dropInflight (s : State) (id : Nat) : State :=
  s.setInflight (s.inflight.filter fun q => q.id != id)

/-- After the end of a run requests leave while their entries stay (R104). -/
theorem State.Inv.dropInflight {s : State} (h : s.Inv) (hr : s.run ≠ .running) (id : Nat) :
    (s.dropInflight id).Inv := by
  obtain ⟨hmem, himg, hpend, ⟨hdist, hentry⟩, -, hstall, hhalt⟩ := h
  exact ⟨hmem, himg, hpend, ⟨hdist.filter _, fun r hr => hentry r (List.mem_of_mem_filter hr)⟩,
    fun hrun => absurd hrun hr, hstall, hhalt⟩

/-- A request and its entry leave together (R44, R95). -/
theorem State.Inv.complete {s : State} (h : s.Inv) (id : Nat) :
    ((s.dropInflight id).setPending (s.pending.erase id)).Inv := by
  obtain ⟨hmem, himg, ⟨hrise, hfresh⟩, ⟨hdist, hentry⟩, hwait, hstall, hhalt⟩ := h
  have hmem_flight : ∀ r, r ∈ (s.dropInflight id).inflight ↔ r ∈ s.inflight ∧ r.id ≠ id := by
    simp [State.dropInflight]
  refine ⟨hmem, himg, ⟨Pending.erase_rising hrise id, fun p hp => ?_⟩, ⟨hdist.filter _, ?_⟩, ?_,
    hstall, ?_⟩
  · exact hfresh p (Pending.mem_erase.1 hp).1
  · intro r hr
    obtain ⟨hr, hne⟩ := (hmem_flight r).1 hr
    obtain ⟨hlt, p, hp, hpr, hk⟩ := hentry r hr
    exact ⟨hlt, p, Pending.mem_erase.2 ⟨hp, hpr ▸ hne⟩, hpr, hk⟩
  · intro hrun p hp
    obtain ⟨hp, hne⟩ := Pending.mem_erase.1 hp
    obtain ⟨r, hr, hrp⟩ := hwait hrun p hp
    exact ⟨r, (hmem_flight r).2 ⟨hr, hrp ▸ hne⟩, hrp⟩
  · intro hh
    obtain ⟨hp, hs⟩ := hhalt hh
    exact ⟨by simp [hp, Pending.erase], hs⟩

/-! ### The invariant under each agent -/

/-- Handler actions keep the invariant of a running core (R127). -/
theorem Acted.inv {s t : State} (ha : Acted s t) (hr : s.run = .running) (h : s.Inv) : t.Inv := by
  induction ha with
  | refl s => exact h
  | write d v _ _ _ ih => exact ih hr (inv_setRegs.2 h)
  | send a k e hlt he _ ih => exact ih hr (h.sendRequest hr hlt he)

/-- An ALU opcode's latency is within the bound of `stall` (R26). -/
theorem latency_le_maxAluLatency (p : Params) {op : Byte} (h : op ∈ Opcode.alu) :
    latency p op ≤ maxAluLatency p :=
  List.le_max_of_le' _ (List.mem_map_of_mem h) le_rfl

/-- An instruction dispatched with every gate open keeps the invariant (R77, R82). -/
theorem exec_inv {i : Instr} {s t : State} (h : s.Inv) (hr : s.run = .running)
    (hp : s.pending = []) (hs : s.stall = 0) (he : exec i s = .next t) : t.Inv := by
  cases exec_cases he with
  | fault c => exact h.raised c
  | advance _ => exact inv_setPc.2 h
  | jump off _ => exact inv_setPc.2 h
  | halt _ => exact (inv_setPc.2 h).halted hp hs
  | request a k e _ ha hk => exact inv_setPc.2 (h.sendRequest hr ha hk)
  | alu d v _ hop _ _ =>
    exact inv_setPc.2 ((inv_setRegs.2 h).setStall hr (latency_le_maxAluLatency s.params hop))
  | custom w k st u p _ _ ha => exact inv_setPc.2 (ha.inv hr (inv_setHandlerState.2 h))
  | customFault w k st u c _ _ ha => exact (ha.inv hr (inv_setHandlerState.2 h)).raised c

theorem advance_inv {s t : State} (h : s.Inv) (ha : advance s = .next t) : t.Inv := by
  rcases advance_cases ha with ⟨rfl, -⟩ | ⟨hr, -, rfl⟩ |
    ⟨hr, hs, hp, -, ⟨c, -, rfl⟩ | ⟨w, -, he⟩⟩
  · exact h
  · exact h.setStall hr ((Nat.sub_le _ _).trans h.stall_le)
  · exact h.raised c
  · exact exec_inv h hr hp hs he

/-- The completion of a request that has just left keeps the invariant (R95, R104). -/
theorem onCompletion_inv {s t : State} {id : Nat} {data : Word} (h : s.Inv)
    (hc : onCompletion (s.dropInflight id) id data = .next t) : t.Inv := by
  rcases onCompletion_cases hc with
    ⟨hr, rfl⟩ | ⟨-, -, rfl⟩ | ⟨-, -, rfl⟩ | ⟨d, -, -, hw | ⟨c, rfl⟩⟩
  · exact h.dropInflight hr id
  · exact (h.raised _).dropInflight nofun id
  · exact h.complete id
  · obtain ⟨-, -, rfl⟩ := writeReg_ok.1 hw
    exact inv_setRegs.2 (h.complete id)
  · exact (h.complete id).raised c

/-- A performed write lies below MAXADDR, so memory stays canonical (R43, R44). -/
theorem memoryStep_inv {s t : State} {id : Nat} (h : s.Inv) (hm : memoryStep s id = .next t) :
    t.Inv := by
  rcases memoryStep_cases hm with rfl | ⟨r, -, rfl, hadm, hp⟩
  · exact h
  rcases performRequest_cases hp with ⟨-, hc⟩ | ⟨v, -, hc⟩
  · exact onCompletion_inv h hc
  · have hbelow : r.addr.toNat + 8 ≤ 2 ^ 64 := hadm.trans s.params.maxAddr.isLt.le
    exact onCompletion_inv (h.setMem (Memory.wf_write8 h.mem_wf hbelow v)) hc

theorem strayCompletion_inv {s t : State} {id : Nat} {data : Word} (h : s.Inv)
    (hc : strayCompletion s id data = .next t) : t.Inv := by
  rcases strayCompletion_cases hc with rfl | ⟨-, -, rfl⟩
  · exact h
  · exact h.raised _

theorem handlerStep_inv {s t : State} {k choice : Nat} (h : s.Inv)
    (hs : handlerStep s k choice = .next t) : t.Inv := by
  rcases handlerStep_cases hs with
    rfl | ⟨hr, st, u, -, ha, rfl | ⟨c, rfl⟩⟩ | ⟨-, st, regs, -, -, -, rfl⟩
  · exact h
  · exact ha.inv hr (inv_setHandlerState.2 h)
  · exact (ha.inv hr (inv_setHandlerState.2 h)).raised c
  · exact inv_setRegs.2 (inv_setHandlerState.2 h)

/-- Settles O58, agent by agent. -/
theorem stepKeepsInvariant : Obligations.StepKeepsInvariant := by
  intro s t h hstep
  have hpop : (popEvent s).Inv := inv_popEvent.2 h
  rcases act_cases hstep with ⟨-, ha⟩ | ⟨-, -, rfl⟩ |
    ⟨-, ⟨id, -, hm⟩ | ⟨id, data, -, hc⟩ | ⟨k, choice, -, hh⟩⟩
  · exact advance_inv (inv_setStarted.2 hpop) ha
  · exact hpop
  · exact memoryStep_inv hpop hm
  · exact strayCompletion_inv hpop hc
  · exact handlerStep_inv hpop hh

end Sys2Proof.Machine
end

section
/-! PROOFS. The register file and the pending-request table (R17, R18, R22). -/

namespace Sys2Proof.Machine

/-- An index that is neither 0 nor 1 names a slot (R15). -/
theorem two_le_toNat {i : Byte} (h0 : i ≠ 0) (h1 : i ≠ 1) : 2 ≤ i.toNat := by
  have h0' : i.toNat ≠ 0 := fun h => h0 (BitVec.eq_of_toNat_eq h)
  have h1' : i.toNat ≠ 1 := fun h => h1 (BitVec.eq_of_toNat_eq h)
  omega

@[simp] theorem setRegs_set_n (s : State) (k : Nat) (v : Word) :
    (s.setRegs (s.regs.set k v)).n = s.n := by
  rw [State.setRegs_n, List.length_set, State.n]

/-- A slot that has just been written reads the value. -/
theorem readReg_set_same {s : State} {i : Byte} (h2 : 2 ≤ i.toNat) (hn : i.toNat < s.n) (v : Word) :
    readReg (s.setRegs (s.regs.set (i.toNat - 2) v)) i = .ok v := by
  have hslot : i.toNat - 2 < s.regs.length := by
    unfold State.n at hn
    omega
  rw [readReg_general h2 (by rwa [setRegs_set_n])]
  simp [hslot]

/-- A write of one slot changes the read of no other index, registers 0 and 1 and faults included. -/
theorem readReg_set_other {s : State} {i j : Byte} (h2 : 2 ≤ i.toNat) (hj : j ≠ i) (v : Word) :
    readReg (s.setRegs (s.regs.set (i.toNat - 2) v)) j = readReg s j := by
  by_cases h0 : j = 0
  · subst h0
    rfl
  by_cases h1 : j = 1
  · subst h1
    rfl
  have hj2 := two_le_toNat h0 h1
  rcases Nat.lt_or_ge j.toNat s.n with hn | hn
  · have hne : i.toNat - 2 ≠ j.toNat - 2 := fun h => hj (BitVec.eq_of_toNat_eq (by omega))
    rw [readReg_general hj2 hn, readReg_general hj2 (by rwa [setRegs_set_n]), State.setRegs_regs,
      List.getD_eq_getElem?_getD, List.getElem?_set_ne hne, List.getD_eq_getElem?_getD]
  · rw [readReg_outOfRange hn, readReg_outOfRange (by rwa [setRegs_set_n]), State.setRegs_pc]

/-- Settles O7. -/
theorem registerReadRule : Obligations.RegisterReadRule := by
  intro s
  refine ⟨readReg_zero s, readReg_one s, fun i h2 => ⟨readReg_outOfRange, fun v hv => ?_⟩⟩
  obtain ⟨hslot, -⟩ := List.getElem?_eq_some_iff.1 hv
  have hn : i.toNat < s.n := by
    unfold State.n
    omega
  rw [readReg_general h2 hn, List.getD_eq_getElem?_getD, hv, Option.getD_some]

/-- Settles O8. -/
theorem registerWriteRule : Obligations.RegisterWriteRule := by
  intro s i v
  exact ⟨fun h => writeReg_reserved h v, fun h => writeReg_outOfRange h v,
    fun ⟨h2, hn⟩ => writeReg_general h2 hn v⟩

/-- Settles O9. -/
theorem writtenRegisterReadsBack : Obligations.WrittenRegisterReadsBack := by
  intro s t i v hw
  obtain ⟨h2, hn, rfl⟩ := writeReg_ok.1 hw
  exact ⟨readReg_set_same h2 hn v, fun j hj => readReg_set_other h2 hj v⟩

/-- Settles O10. -/
theorem pendingTableIsAMap : Obligations.PendingTableIsAMap := by
  intro p hp id e
  exact ⟨Pending.insert_rising hp id e, Pending.erase_rising hp id,
    fun k => ⟨Pending.find_insert hp id e k, Pending.find_erase p id k⟩⟩

/-- Settles O55. -/
theorem preloadRule : Obligations.PreloadRule := by
  intro s i v
  exact ⟨fun h => if_pos h, fun h => if_neg h⟩

end Sys2Proof.Machine
end

section
/-! PROOFS. What no step changes: after the end of a run, in the launch's configuration, in the
registers, and in the alignment of the program counter (R19, R20, R25, R34). -/

namespace Sys2Proof.Machine

/-- The memory interface does nothing, or a request leaves, data memory is as the request makes it,
and its completion is delivered (R44). -/
theorem memoryStep_completes {s t : State} {id : Nat} (h : memoryStep s id = .next t) :
    t = s ∨ ∃ r ∈ s.inflight, r.id = id ∧ ∃ m data,
      onCompletion ((s.dropInflight id).setMem m) id data = .next t := by
  rcases memoryStep_cases h with rfl | ⟨r, hr, rfl, -, hp⟩
  · exact .inl rfl
  refine .inr ⟨r, hr, rfl, ?_⟩
  rcases performRequest_cases hp with ⟨-, hc⟩ | ⟨v, -, hc⟩
  · exact ⟨s.mem, _, hc⟩
  · exact ⟨_, _, hc⟩

/-! ### After the end of a run (R34) -/

/-- What the end of a run leaves for ever: all but the registers after HALT (R163). -/
def EndKept (s t : State) : Prop :=
  t.run = s.run ∧ t.pc = s.pc ∧ t.stall = s.stall ∧ t.pending = s.pending ∧ t.image = s.image ∧
    (s.run ≠ .halted → t.regs = s.regs)

theorem EndKept.refl (s : State) : EndKept s s := by simp [EndKept]

theorem advance_of_ended {s t : State} (hr : s.run ≠ .running) (h : advance s = .next t) :
    t = s := by
  rcases advance_cases h with ⟨rfl, -⟩ | ⟨hrun, -⟩ | ⟨hrun, -⟩
  · rfl
  · exact absurd hrun hr
  · exact absurd hrun hr

/-- After the end of a run a request still leaves and is performed, and its completion has no effect
(R104). -/
theorem memoryStep_of_ended {s t : State} {id : Nat} (hr : s.run ≠ .running)
    (h : memoryStep s id = .next t) : EndKept s t := by
  rcases memoryStep_completes h with rfl | ⟨r, -, -, m, data, hc⟩
  · exact EndKept.refl t
  · obtain ⟨-, -, -, -, -, -, -, -, -, -, -, hsame⟩ := onCompletion_frame hc
    rw [hsame hr]
    exact EndKept.refl s

theorem strayCompletion_of_ended {s t : State} {id : Nat} {data : Word} (hr : s.run ≠ .running)
    (h : strayCompletion s id data = .next t) : t = s := by
  rcases strayCompletion_cases h with rfl | ⟨hrun, -⟩
  · rfl
  · exact absurd hrun hr

/-- After HALT a handler's step may write registers, after a fault not even that (R163, log 11). -/
theorem handlerStep_of_ended {s t : State} {k choice : Nat} (hr : s.run ≠ .running)
    (h : handlerStep s k choice = .next t) : EndKept s t := by
  rcases handlerStep_cases h with rfl | ⟨hrun, -⟩ | ⟨-, st, regs, -, -, hregs, rfl⟩
  · exact EndKept.refl t
  · exact absurd hrun hr
  · exact ⟨rfl, rfl, rfl, rfl, rfl, hregs⟩

/-- Settles O46. -/
theorem endedRunNeverChanges : Obligations.EndedRunNeverChanges := by
  intro s t hr hstep
  show EndKept (popEvent s) t
  have hpop : (popEvent s).run ≠ .running := hr
  rcases act_cases hstep with ⟨-, ha⟩ | ⟨-, -, rfl⟩ |
    ⟨-, ⟨id, -, hm⟩ | ⟨id, data, -, hc⟩ | ⟨k, choice, -, hh⟩⟩
  · have hticked : ((popEvent s).setStarted true).run ≠ .running := hr
    rw [advance_of_ended hticked ha]
    exact EndKept.refl (popEvent s)
  · exact EndKept.refl _
  · exact memoryStep_of_ended hpop hm
  · rw [strayCompletion_of_ended hpop hc]
    exact EndKept.refl _
  · exact handlerStep_of_ended hpop hh

/-! ### The launch's configuration (R25, R27, R29) -/

/-- Everything of a handler but its own state (R25). -/
def Handler.identity (h : Handler) : Nat × List Byte × List ExecEntry × List StepEntry :=
  (h.ext, h.claims, h.execs, h.steps)

/-- What a launch fixes for a whole run: the image, MAXADDR and LAT, N, and the registry. -/
def SameConfig (s t : State) : Prop :=
  t.image = s.image ∧ t.params = s.params ∧ t.n = s.n ∧
    t.handlers.map Handler.identity = s.handlers.map Handler.identity

theorem SameConfig.refl (s : State) : SameConfig s s := ⟨rfl, rfl, rfl, rfl⟩

theorem SameConfig.trans {s t u : State} (h : SameConfig s t) (h' : SameConfig t u) :
    SameConfig s u := by
  obtain ⟨himg, hpar, hn, hh⟩ := h
  obtain ⟨himg', hpar', hn', hh'⟩ := h'
  exact ⟨himg'.trans himg, hpar'.trans hpar, hn'.trans hn, hh'.trans hh⟩

theorem sameConfig_setRegs {s : State} {x : List Word} (h : x.length = s.regs.length) :
    SameConfig s (s.setRegs x) := ⟨rfl, rfl, congrArg (· + 2) h, rfl⟩

/-- A new handler state leaves what the handlers are, and their order. -/
theorem sameConfig_setHandlerState (s : State) (i : Nat) (st : HandlerState) :
    SameConfig s (setHandlerState s i st) := by
  refine ⟨rfl, rfl, rfl, List.ext_getElem? fun j => ?_⟩
  rw [setHandlerState_handlers, List.getElem?_map, List.getElem?_modify, List.getElem?_map]
  by_cases hj : i = j
  · cases s.handlers[j]? <;> simp [hj, Handler.identity]
  · simp [hj]

theorem Acted.sameConfig {s t : State} (h : Acted s t) : SameConfig s t := by
  obtain ⟨-, -, -, hh, himg, hpar, -, -, hlen⟩ := h.frame
  exact ⟨himg, hpar, congrArg (· + 2) hlen, by rw [hh]⟩

theorem exec_sameConfig {i : Instr} {s t : State} (h : exec i s = .next t) : SameConfig s t := by
  cases exec_cases h with
  | fault c => exact SameConfig.refl s
  | advance _ => exact SameConfig.refl s
  | jump off _ => exact SameConfig.refl s
  | halt _ => exact SameConfig.refl s
  | request a k e _ _ _ => exact SameConfig.refl s
  | alu d v _ _ _ _ => exact sameConfig_setRegs (s := s) (List.length_set ..)
  | custom w k st u p _ _ ha => exact (sameConfig_setHandlerState s k st).trans ha.sameConfig
  | customFault w k st u c _ _ ha => exact (sameConfig_setHandlerState s k st).trans ha.sameConfig

theorem advance_sameConfig {s t : State} (h : advance s = .next t) : SameConfig s t := by
  rcases advance_cases h with ⟨rfl, -⟩ | ⟨-, -, rfl⟩ | ⟨-, -, -, -, ⟨c, -, rfl⟩ | ⟨w, -, he⟩⟩
  · exact SameConfig.refl t
  · exact SameConfig.refl s
  · exact SameConfig.refl s
  · exact exec_sameConfig he

theorem memoryStep_sameConfig {s t : State} {id : Nat} (h : memoryStep s id = .next t) :
    SameConfig s t := by
  rcases memoryStep_completes h with rfl | ⟨r, -, -, m, data, hc⟩
  · exact SameConfig.refl t
  · obtain ⟨-, -, hh, himg, hpar, -, hlen, -⟩ := onCompletion_frame hc
    exact ⟨himg, hpar, congrArg (· + 2) hlen, by rw [hh]; rfl⟩

theorem strayCompletion_sameConfig {s t : State} {id : Nat} {data : Word}
    (h : strayCompletion s id data = .next t) : SameConfig s t := by
  rcases strayCompletion_cases h with rfl | ⟨-, -, rfl⟩
  · exact SameConfig.refl t
  · exact SameConfig.refl s

theorem handlerStep_sameConfig {s t : State} {k choice : Nat}
    (h : handlerStep s k choice = .next t) : SameConfig s t := by
  rcases handlerStep_cases h with
    rfl | ⟨-, st, u, -, ha, rfl | ⟨c, rfl⟩⟩ | ⟨-, st, regs, -, hlen, -, rfl⟩
  · exact SameConfig.refl t
  · exact (sameConfig_setHandlerState s k st).trans ha.sameConfig
  · exact (sameConfig_setHandlerState s k st).trans ha.sameConfig
  · exact (sameConfig_setHandlerState s k st).trans (sameConfig_setRegs hlen)

/-- Settles O48. -/
theorem launchConfigurationNeverChanges : Obligations.LaunchConfigurationNeverChanges := by
  intro s t hstep
  show SameConfig (popEvent s) t
  rcases act_cases hstep with ⟨-, ha⟩ | ⟨-, -, rfl⟩ |
    ⟨-, ⟨id, -, hm⟩ | ⟨id, data, -, hc⟩ | ⟨k, choice, -, hh⟩⟩
  · exact (advance_sameConfig ha :)
  · exact SameConfig.refl _
  · exact memoryStep_sameConfig hm
  · exact strayCompletion_sameConfig hc
  · exact handlerStep_sameConfig hh

/-! ### Who writes registers (R19) -/

/-- Fields with an opcode of the fixed table give an instruction of that opcode, never a custom one
(R66, R82). -/
theorem instrOfFields_fixed (f : Fields) (w : InstrWord) : ∀ op ∈ Opcode.fixed,
    (instrOfFields { f with opcode := op } w).opcode = op ∧
      ∀ v, instrOfFields { f with opcode := op } w ≠ .custom v := by
  refine forall_fixed fun n hn => ?_
  fin_cases hn <;> exact ⟨rfl, nofun⟩

/-- A word decodes to an instruction of the opcode in its byte 0 (R66, R82). -/
theorem opcode_decodeWord (w : InstrWord) : (decodeWord w).opcode = byteOfWord w 0 := by
  refine decodeWord_elim (P := fun i => i.opcode = byteOfWord w 0) w (fun op hop hw => ?_)
    fun _ => rfl
  rw [hw]
  exact (instrOfFields_fixed (fieldsOf w) w op hop).1

/-- Only a word whose opcode the fixed table lacks decodes to a custom instruction (R67). -/
theorem opClass_of_decodeWord_custom {w v : InstrWord} (h : decodeWord w = .custom v) :
    opClass (byteOfWord w 0) = .custom := by
  refine decodeWord_elim (P := fun i => i = .custom v → opClass (byteOfWord w 0) = .custom) w
    (fun op hop _ hi => ?_) (fun hw _ => notMem_fixed_iff.1 hw) h
  exact absurd hi ((instrOfFields_fixed (fieldsOf w) w op hop).2 v)

theorem exec_regs {i : Instr} {s t : State} (halu : opClass i.opcode ≠ .alu)
    (hcustom : ∀ w, i ≠ .custom w) (h : exec i s = .next t) : t.regs = s.regs := by
  cases exec_cases h with
  | fault c => rfl
  | advance _ => rfl
  | jump off _ => rfl
  | halt _ => rfl
  | request a k e _ _ _ => rfl
  | alu d v hop _ _ _ => exact absurd hop halu
  | custom w k st u p hi _ _ => exact absurd hi (hcustom w)
  | customFault w k st u c hi _ _ => exact absurd hi (hcustom w)

/-- A tick that changes a register dispatches an ALU or a custom opcode. -/
theorem advance_regs {s t : State} (h : advance s = .next t) (hne : t.regs ≠ s.regs) :
    ∃ w, imgRead32 s s.pc = .ok w ∧
      (opClass (byteOfWord w 0) = .alu ∨ opClass (byteOfWord w 0) = .custom) := by
  rcases advance_cases h with ⟨rfl, -⟩ | ⟨-, -, rfl⟩ | ⟨-, -, -, -, ⟨c, -, rfl⟩ | ⟨w, hw, he⟩⟩
  · exact absurd rfl hne
  · exact absurd rfl hne
  · exact absurd rfl hne
  refine ⟨w, hw, ?_⟩
  by_contra hclass
  obtain ⟨halu, hcustom⟩ := not_or.1 hclass
  exact hne (exec_regs (by rwa [opcode_decodeWord])
    (fun v hv => hcustom (opClass_of_decodeWord_custom hv)) he)

/-- The memory interface changes a register only with the completion of a load. -/
theorem memoryStep_regs {s t : State} {id : Nat} (h : memoryStep s id = .next t)
    (hne : t.regs ≠ s.regs) :
    ∃ r ∈ s.inflight, r.id = id ∧ ∃ d, s.pending.find id = some (some d) := by
  rcases memoryStep_completes h with rfl | ⟨r, hr, hid, m, data, hc⟩
  · exact absurd rfl hne
  rcases onCompletion_cases hc with ⟨-, rfl⟩ | ⟨-, -, rfl⟩ | ⟨-, -, rfl⟩ | ⟨d, -, hfind, -⟩
  · exact absurd rfl hne
  · exact absurd rfl hne
  · exact absurd rfl hne
  · exact ⟨r, hr, hid, d, hfind⟩

theorem strayCompletion_regs {s t : State} {id : Nat} {data : Word}
    (h : strayCompletion s id data = .next t) : t.regs = s.regs := by
  rcases strayCompletion_cases h with rfl | ⟨-, -, rfl⟩
  · rfl
  · rfl

/-- Settles O50. -/
theorem registerWriters : Obligations.RegisterWriters := by
  refine ⟨fun i s t halu hcustom => exec_regs halu hcustom, fun s t hstep hne => ?_⟩
  rcases act_cases hstep with ⟨he, ha⟩ | ⟨-, -, rfl⟩ |
    ⟨-, ⟨id, he, hm⟩ | ⟨id, data, -, hc⟩ | ⟨k, choice, he, -⟩⟩
  · exact .inl ⟨he, (advance_regs ha hne :)⟩
  · exact absurd rfl hne
  · obtain ⟨r, hr, rfl, hd⟩ := memoryStep_regs hm hne
    exact .inr (.inl ⟨r, hr, he, hd⟩)
  · exact absurd (strayCompletion_regs hc) hne
  · exact .inr (.inr ⟨k, choice, he⟩)

/-! ### The alignment of the program counter (R20) -/

theorem exec_pc_aligned {i : Instr} {s t : State} (hh : s.handlers = []) (h : exec i s = .next t)
    (hpc : s.pc.toNat % 4 = 0) : t.pc.toNat % 4 = 0 := by
  have noHandler : ∀ k, ¬ k < s.handlers.length := by simp [hh]
  have hnext : (s.pc + 4).toNat % 4 = 0 := (add_four_mod_four s.pc).trans hpc
  cases exec_cases h with
  | fault c => exact hpc
  | advance _ => exact hnext
  | jump off _ => exact (jumpTarget_mod_four s.pc off).trans hpc
  | halt _ => exact hnext
  | request a k e _ _ _ => exact hnext
  | alu d v _ _ _ _ => exact hnext
  | custom w k st u p _ hk _ => exact absurd hk (noHandler k)
  | customFault w k st u c _ hk _ => exact absurd hk (noHandler k)

theorem advance_pc_aligned {s t : State} (hh : s.handlers = []) (h : advance s = .next t)
    (hpc : s.pc.toNat % 4 = 0) : t.pc.toNat % 4 = 0 := by
  rcases advance_cases h with ⟨rfl, -⟩ | ⟨-, -, rfl⟩ | ⟨-, -, -, -, ⟨c, -, rfl⟩ | ⟨w, -, he⟩⟩
  · exact hpc
  · exact hpc
  · exact hpc
  · exact exec_pc_aligned hh he hpc

theorem memoryStep_pc {s t : State} {id : Nat} (h : memoryStep s id = .next t) : t.pc = s.pc := by
  rcases memoryStep_completes h with rfl | ⟨r, -, -, m, data, hc⟩
  · rfl
  · obtain ⟨hpc, -⟩ := onCompletion_frame hc
    exact hpc

theorem strayCompletion_pc {s t : State} {id : Nat} {data : Word}
    (h : strayCompletion s id data = .next t) : t.pc = s.pc := by
  rcases strayCompletion_cases h with rfl | ⟨-, -, rfl⟩
  · rfl
  · rfl

/-- A handler's step never moves the program counter: SetPC is ignored there (R131). -/
theorem handlerStep_pc {s t : State} {k choice : Nat} (h : handlerStep s k choice = .next t) :
    t.pc = s.pc := by
  rcases handlerStep_cases h with
    rfl | ⟨-, st, u, -, ha, rfl | ⟨c, rfl⟩⟩ | ⟨-, st, regs, -, -, -, rfl⟩
  · rfl
  · obtain ⟨hpc, -⟩ := ha.frame
    exact hpc
  · obtain ⟨hpc, -⟩ := ha.frame
    exact hpc
  · rfl

/-- Settles O51. -/
theorem pcStaysAligned : Obligations.PcStaysAligned := by
  intro s t hh hstep hpc
  rcases act_cases hstep with ⟨-, ha⟩ | ⟨-, -, rfl⟩ |
    ⟨-, ⟨id, -, hm⟩ | ⟨id, data, -, hc⟩ | ⟨k, choice, -, hs⟩⟩
  · exact advance_pc_aligned (s := (popEvent s).setStarted true) hh ha hpc
  · exact hpc
  · rw [memoryStep_pc hm]
    exact hpc
  · rw [strayCompletion_pc hc]
    exact hpc
  · rw [handlerStep_pc hs]
    exact hpc

end Sys2Proof.Machine
end

section
/-! PROOFS. Reset and launch (R31, R40, R153, R154). -/

namespace Sys2Proof.Machine

/-- Settles O52. -/
theorem resetValues : Obligations.ResetValues := by
  refine ⟨fun i h2 h8 => ?_, rfl, rfl, rfl, rfl, rfl, rfl, rfl⟩
  have hslot : i.toNat - 2 < 6 := by omega
  have hregs : State.reset.regs = List.replicate 6 0 := rfl
  rw [readReg_general (s := State.reset) h2 h8, hregs, List.getD_replicate _ hslot]

/-! ### What a launch answers -/

/-- An accepted preload changes one slot (R32). -/
theorem preload_ok {s t : State} {i : Byte} {v : Word} (h : preload s i v = .ok t) :
    t = s.setRegs (s.regs.set (i.toNat - 2) v) := by
  unfold preload at h
  split at h
  · cases h
    rfl
  · cases h

/-- Accepted preloads change registers alone (R32). -/
theorem preloadAll_ok {s t : State} {l : List (Byte × Word)} (h : preloadAll s l = .ok t) :
    ∃ regs, t = s.setRegs regs := by
  induction l generalizing s with
  | nil =>
    cases h
    exact ⟨t.regs, rfl⟩
  | cons iv rest ih =>
    obtain ⟨i, v⟩ := iv
    rw [preloadAll] at h
    cases hp : preload s i v with
    | error r =>
      rw [hp] at h
      cases h
    | ok u =>
      rw [hp] at h
      obtain ⟨regs, rfl⟩ := ih h
      rw [preload_ok hp]
      exact ⟨regs, rfl⟩

/-- A construction that answers a state found the image malformed, or loaded it and preloaded
registers (R42, R153). -/
theorem construct_cases {l : Launch} {s : State} (h : construct l = .next s) :
    (∃ c, s = (allocated l).setRun (.faulted c)) ∨
    ∃ img regs, loadImage l.file = .ok img ∧ s = (withImage l img).setRegs regs := by
  unfold construct at h
  split at h
  · cases h
  split at h
  · cases h
  split at h
  · next c _ => exact .inl ⟨c, raise_next.1 h⟩
  next img himg =>
  split at h
  · cases h
  next u hu =>
  cases h
  obtain ⟨regs, rfl⟩ := preloadAll_ok hu
  exact .inr ⟨img, regs, himg, rfl⟩

/-- A launch the spec admits, with no preload, starts from its loaded image (R153). -/
theorem construct_of_loadImage {l : Launch} {img : Image} (hn : 2 ≤ l.n)
    (hext : (l.handlers.map Handler.ext).Nodup) (hregs : l.initRegs = [])
    (himg : loadImage l.file = .ok img) : construct l = .next (withImage l img) := by
  rw [construct, if_neg (by omega), if_neg (not_not_intro hext), himg]
  dsimp only
  rw [hregs]
  rfl

/-! ### The loaded image (R40) -/

/-- A loaded image is as its header says, and its body, padding included, is no longer than the
file. -/
theorem loadImage_ok {file : List Byte} {img : Image} (h : loadImage file = .ok img) :
    img.wf = true ∧ img.body.length ≤ file.length := by
  unfold loadImage at h
  dsimp only at h
  split at h
  · cases h
  next hlen =>
  cases h
  have hpad := (padding_spec (headerField file 8 + headerField file 16)).2
  rw [Image.wf_iff]
  simp only [List.length_append, List.length_take, List.length_drop, List.length_replicate]
  omega

/-- A segment of known place and length is found again. -/
theorem take_drop_segment {pre mid post : List Byte} {n k : Nat} (hn : pre.length = n)
    (hk : mid.length = k) : ((pre ++ mid ++ post).drop n).take k = mid := by
  rw [List.append_assoc, List.drop_left' hn, List.take_left' hk]

/-- The image of a file that holds its header's lengths: the header's fields, and the body with its
padding; what follows is ignored. -/
theorem loadImage_of_parts {version dataLength instLength body rest : List Byte}
    (hv : version.length = 8) (hd : dataLength.length = 8) (hi : instLength.length = 8)
    (hb : body.length = leNat dataLength + leNat instLength) :
    loadImage (version ++ dataLength ++ instLength ++ body ++ rest) = .ok {
      dataLength := leNat dataLength
      instLength := leNat instLength
      body := body ++ List.replicate (padding body.length) 0 } := by
  have hfield8 : headerField (version ++ dataLength ++ instLength ++ body ++ rest) 8
      = leNat dataLength := by
    have h := take_drop_segment (post := instLength ++ (body ++ rest)) hv hd
    simpa only [headerField, List.append_assoc] using congrArg leNat h
  have hfield16 : headerField (version ++ dataLength ++ instLength ++ body ++ rest) 16
      = leNat instLength := by
    have hpre : (version ++ dataLength).length = 16 := by rw [List.length_append, hv, hd]
    have h := take_drop_segment (post := body ++ rest) hpre hi
    simpa only [headerField, List.append_assoc] using congrArg leNat h
  have hheader : (version ++ dataLength ++ instLength).length = 24 := by
    rw [List.length_append, List.length_append, hv, hd, hi]
  unfold loadImage
  dsimp only
  rw [hfield8, hfield16, ← hb, if_neg, take_drop_segment hheader rfl]
  simp only [List.length_append]
  omega

/-- Data memory at launch: the body over INIT_MEM (R37). -/
theorem get_withImage_mem {l : Launch} (hm : l.initMem.wf = true) (img : Image) (a : Nat) :
    (withImage l img).mem.get a =
      if a < img.body.length then img.body.getD a 0 else l.initMem.get a := by
  have h := Memory.get_setBytes (Memory.rising_of_wf hm) img.body 0 a
  simp only [Nat.zero_le, true_and, Nat.zero_add, Nat.sub_zero] at h
  exact h

/-- Settles O53. -/
theorem constructStartsTheCore : Obligations.ConstructStartsTheCore := by
  intro l version dataLength instLength body rest hn hext hregs hm hv hd hi hb hfile
  have himg := loadImage_of_parts (rest := rest) hv hd hi hb
  rw [← hfile] at himg
  refine ⟨_, construct_of_loadImage hn hext hregs himg, ?_, ?_, rfl, rfl, rfl, rfl, rfl, rfl, rfl,
    rfl, rfl, rfl, rfl, rfl, rfl, get_withImage_mem hm _⟩
  · show (List.replicate (l.n - 2) (0 : Word)).length + 2 = l.n
    rw [List.length_replicate]
    omega
  · intro v hv
    exact List.eq_of_mem_replicate hv

/-! ### The invariant after a launch (R34) -/

/-- A core with nothing pending or in flight and no latency has the invariant if its memory and image
do. -/
theorem inv_of_idle {s : State} (hm : s.mem.wf = true) (hi : s.image.wf = true)
    (hp : s.pending = []) (hf : s.inflight = []) (hs : s.stall = 0) : s.Inv := by
  refine ⟨hm, hi, ?_, ?_, ?_, ?_, fun _ => ⟨hp, hs⟩⟩
  · simp [State.PendingOk, hp]
  · simp [State.InflightOk, hf]
  · simp [State.PendingWaits, hp]
  · simp [hs]

theorem Image.wf_empty : Image.empty.wf = true := by decide

theorem allocated_inv {l : Launch} (hm : l.initMem.wf = true) : (allocated l).Inv :=
  inv_of_idle hm Image.wf_empty rfl rfl rfl

theorem withImage_inv {l : Launch} (hm : l.initMem.wf = true) {img : Image} (hi : img.wf = true)
    (hlen : img.body.length ≤ 2 ^ 64) : (withImage l img).Inv :=
  inv_of_idle (Memory.wf_setBytes hm img.body 0 (by omega)) hi rfl rfl rfl

/-- Settles O56: the empty core is idle. -/
theorem resetHasInvariant : Obligations.ResetHasInvariant :=
  inv_of_idle Memory.wf_nil Image.wf_empty rfl rfl rfl

/-- Settles O57. -/
theorem constructHasInvariant : Obligations.ConstructHasInvariant := by
  intro l s hm hfile h
  rcases construct_cases h with ⟨c, rfl⟩ | ⟨img, regs, himg, rfl⟩
  · exact (allocated_inv hm).raised c
  · obtain ⟨hi, hlen⟩ := loadImage_ok himg
    exact inv_setRegs.2 (withImage_inv hm hi (by omega))

end Sys2Proof.Machine
end

section
/-! PROOFS. Data memory and the image (20_memory.md): bytes, canonical form, fetch, and a file too
short for its header (R36 to R42). -/

namespace Sys2Proof.Machine

/-- Settles O11. -/
theorem dataIsLittleEndian : Obligations.DataIsLittleEndian :=
  ⟨Memory.toNat_read8, toNat_byteOf⟩

/-- Settles O12: a read that shares no byte with the write meets only old bytes. -/
theorem readAfterWrite : Obligations.ReadAfterWrite := by
  intro m a b v hm
  have hrise := Memory.rising_of_wf hm
  refine ⟨Memory.read8_write8 hrise a v, fun hdisj => Memory.read8_congr fun x hlo hhi => ?_⟩
  rw [Memory.get_write8 hrise, if_neg (by omega)]

/-! ### Equal contents are equal memories -/

/-- The first listed address of a canonical memory is not below every address another memory with the
same contents lists: its byte is not the initial one, so the other lists it too. -/
theorem Memory.not_head_lt_of_get_eq {x : Nat} {c : Byte} {m n : Memory}
    (hm : Memory.wf ((x, c) :: m) = true) (heq : ∀ a, Memory.get ((x, c) :: m) a = n.get a) :
    ¬ ∀ p ∈ n, x < p.1 := by
  intro hlt
  obtain ⟨-, -, hc, -⟩ := Memory.wf_cons.1 hm
  have hx := heq x
  rw [Memory.get, if_pos rfl, Memory.get_of_lt hlt] at hx
  exact hc hx

/-- Canonical memories are extensional (log 3). -/
theorem Memory.ext_of_wf {m n : Memory} (hm : m.wf = true) (hn : n.wf = true)
    (heq : ∀ a, m.get a = n.get a) : m = n := by
  induction m generalizing n with
  | nil =>
    cases n with
    | nil => rfl
    | cons q n => exact absurd (by simp) (not_head_lt_of_get_eq hn fun a => (heq a).symm)
  | cons p m ih =>
    cases n with
    | nil => exact absurd (by simp) (not_head_lt_of_get_eq hm heq)
    | cons q n =>
      obtain ⟨x, c⟩ := p
      obtain ⟨y, d⟩ := q
      obtain ⟨hltm, -, -, hwm⟩ := Memory.wf_cons.1 hm
      obtain ⟨hltn, -, -, hwn⟩ := Memory.wf_cons.1 hn
      have hyx : ¬ x < y := fun h => not_head_lt_of_get_eq hm heq
        (List.forall_mem_cons.2 ⟨h, fun p hp => h.trans (hltn p hp)⟩)
      have hxy : ¬ y < x := fun h => not_head_lt_of_get_eq hn (fun a => (heq a).symm)
        (List.forall_mem_cons.2 ⟨h, fun p hp => h.trans (hltm p hp)⟩)
      obtain rfl : x = y := by omega
      have hcd : c = d := by simpa [Memory.get] using heq x
      have htail : ∀ a, Memory.get m a = Memory.get n a := by
        intro a
        by_cases ha : x = a
        · subst ha
          rw [Memory.get_of_lt hltm, Memory.get_of_lt hltn]
        · simpa [Memory.get, ha] using heq a
      rw [hcd, ih hwm hwn htail]

/-- Settles O13. -/
theorem memoryIsCanonical : Obligations.MemoryIsCanonical :=
  ⟨fun _ _ v hm ha => Memory.wf_write8 hm ha v, fun _ _ => Memory.ext_of_wf⟩

/-! ### Fetch (R41) -/

/-- A fetch not below MAXADDR or not inside the body is fatal. -/
theorem imgRead32_error {s : State} {a : Word}
    (h : ¬ a < s.params.maxAddr ∨ s.image.body.length < a.toNat + 4) :
    imgRead32 s a = .error (.fetchOutOfRange a) := by
  unfold imgRead32
  by_cases hmax : a < s.params.maxAddr
  · have hbody := h.resolve_left (not_not_intro hmax)
    rw [if_neg (not_not_intro hmax), if_pos (by omega)]
  · rw [if_pos hmax]

/-- Any other fetch reads four image bytes. -/
theorem imgRead32_ok {s : State} {a : Word} (hmax : a < s.params.maxAddr)
    (hbody : a.toNat + 4 ≤ s.image.body.length) :
    imgRead32 s a = .ok (wordOfBytes (s.image.byte a.toNat) (s.image.byte (a.toNat + 1))
      (s.image.byte (a.toNat + 2)) (s.image.byte (a.toNat + 3))) := by
  rw [imgRead32, if_neg (not_not_intro hmax), if_neg (by omega)]

theorem Image.byte_of_getElem? {img : Image} {a : Nat} {b : Byte} (h : img.body[a]? = some b) :
    img.byte a = b := by
  rw [Image.byte, List.getD_eq_getElem?_getD, h, Option.getD_some]

/-- Settles O14. -/
theorem fetchRule : Obligations.FetchRule := by
  intro s a
  refine ⟨fun h => imgRead32_error (.inl h), fun h => imgRead32_error (.inr h),
    fun b0 b1 b2 b3 hmax h0 h1 h2 h3 => ?_⟩
  obtain ⟨hbody, -⟩ := List.getElem?_eq_some_iff.1 h3
  rw [imgRead32_ok hmax hbody, Image.byte_of_getElem? h0, Image.byte_of_getElem? h1,
    Image.byte_of_getElem? h2, Image.byte_of_getElem? h3, wordOfBytes]

/-! ### A file shorter than its header says (R42) -/

/-- A header field of known place. -/
theorem headerField_append {pre field post : List Byte} {n : Nat} (hn : pre.length = n)
    (hf : field.length = 8) : headerField (pre ++ field ++ post) n = leNat field := by
  rw [headerField, take_drop_segment hn hf]

/-- A file that holds its header and fewer bytes than the header's lengths is malformed. -/
theorem loadImage_of_short {version dataLength instLength rest : List Byte}
    (hv : version.length = 8) (hd : dataLength.length = 8) (hi : instLength.length = 8)
    (hshort : rest.length < leNat dataLength + leNat instLength) :
    loadImage (version ++ dataLength ++ instLength ++ rest) =
      .error (.imageMalformed (leNat dataLength) (leNat instLength) (24 + rest.length)) := by
  have hfield8 : headerField (version ++ dataLength ++ instLength ++ rest) 8 = leNat dataLength := by
    rw [List.append_assoc (version ++ dataLength), headerField_append hv hd]
  have hfield16 : headerField (version ++ dataLength ++ instLength ++ rest) 16 = leNat instLength :=
    headerField_append (by rw [List.length_append, hv, hd]) hi
  have hlen : (version ++ dataLength ++ instLength ++ rest).length = 24 + rest.length := by
    simp only [List.length_append, hv, hd, hi]
  unfold loadImage
  dsimp only
  rw [hfield8, hfield16, hlen, if_pos (by omega)]

/-- A launch the spec admits whose image does not load is fatal before the first tick. -/
theorem construct_of_loadImage_error {l : Launch} {c : FatalCondition} (hn : 2 ≤ l.n)
    (hext : (l.handlers.map Handler.ext).Nodup) (himg : loadImage l.file = .error c) :
    construct l = .next ((allocated l).setRun (.faulted c)) := by
  rw [construct, if_neg (by omega), if_neg (not_not_intro hext), himg]
  rfl

/-- Settles O54. -/
theorem shortImageIsMalformed : Obligations.ShortImageIsMalformed := by
  intro l version dataLength instLength rest hn hext hv hd hi hfile hshort
  have himg := loadImage_of_short hv hd hi hshort
  rw [← hfile] at himg
  exact ⟨_, construct_of_loadImage_error hn hext himg, rfl⟩

end Sys2Proof.Machine
end

section
/-! PROOFS. The memory interface (R43, R44, R57): what performing a request does, who changes data
memory, and the request that is never performed. -/

namespace Sys2Proof.Machine

/-! ### Events of the agents beside the core (R11, log 23) -/

theorem afterFirstTick_of_started {s : State} (h : s.started = true) (r : Result) :
    afterFirstTick s r = r := if_pos h

theorem afterFirstTick_of_not_started {s : State} (h : s.started = false) (r : Result) :
    afterFirstTick s r = .next s := if_neg (by simp [h])

/-! ### Completions, case by case (R95) -/

theorem onCompletion_of_unknown {s : State} {id : Nat} (hr : s.run = .running)
    (hf : s.pending.find id = none) (data : Word) :
    onCompletion s id data = .next (s.setRun (.faulted (.unknownRequestId id s.pc))) := by
  rw [onCompletion, if_pos hr, hf]
  rfl

theorem onCompletion_of_store {s : State} {id : Nat} (hr : s.run = .running)
    (hf : s.pending.find id = some none) (data : Word) :
    onCompletion s id data = .next (s.setPending (s.pending.erase id)) := by
  rw [onCompletion, if_pos hr, hf]

theorem onCompletion_of_load {s : State} {id : Nat} {d : Byte} (hr : s.run = .running)
    (hf : s.pending.find id = some (some d)) (data : Word) :
    onCompletion s id data = commit (s.setPending (s.pending.erase id))
      (writeReg (s.setPending (s.pending.erase id)) d data) := by
  rw [onCompletion, if_pos hr, hf]

/-- Settles O30. -/
theorem strayCompletionIsFatal : Obligations.StrayCompletionIsFatal := by
  intro s id data he hr hf
  rw [step_of_event he]
  refine ⟨fun hs => ?_, fun hs => afterFirstTick_of_not_started (s := popEvent s) hs _⟩
  have hstray : strayCompletion (popEvent s) id data = onCompletion (popEvent s) id data := by
    rw [strayCompletion, popEvent_pending, hf]
  rw [act, afterFirstTick_of_started (s := popEvent s) hs, hstray,
    onCompletion_of_unknown (s := popEvent s) hr hf]
  rfl

/-! ### Performing a request (R44) -/

theorem memoryStep_of_admissible {s : State} {r : Request}
    (hfind : (s.inflight.find? fun q => q.id == r.id) = some r)
    (hadm : r.addr.toNat + 8 ≤ s.params.maxAddr.toNat) :
    memoryStep s r.id = performRequest s r := by
  rw [memoryStep, hfind]
  exact if_pos (decide_eq_true hadm)

theorem performRequest_read {s : State} {r : Request} (hk : r.kind = .read) :
    performRequest s r =
      onCompletion (s.dropInflight r.id) r.id (s.mem.read8 r.addr.toNat) := by
  rw [performRequest, hk]
  rfl

theorem performRequest_write {s : State} {r : Request} {v : Word} (hk : r.kind = .write v) :
    performRequest s r =
      onCompletion ((s.dropInflight r.id).setMem (s.mem.write8 r.addr.toNat v)) r.id 0 := by
  rw [performRequest, hk]
  rfl

/-- Settles O15. -/
theorem performedRequest : Obligations.PerformedRequest := by
  constructor
  · intro s id he
    rw [step_of_event he]
    exact ⟨fun hs => afterFirstTick_of_started (s := popEvent s) hs _,
      fun hs => afterFirstTick_of_not_started (s := popEvent s) hs _⟩
  intro s r e hr hwf hfind hentry hadm
  refine ⟨_, rfl, fun hk d hd => ?_, fun v hk he => ?_⟩
  · subst hd
    rw [memoryStep_of_admissible hfind hadm, performRequest_read hk,
      onCompletion_of_load (s := s.dropInflight r.id) hr hentry]
    refine ⟨fun ⟨h2, hn⟩ => ?_, fun hlow => ?_, fun hhigh => ?_⟩
    · rw [writeReg_general (s := (s.dropInflight r.id).setPending _) h2 hn]
      rfl
    · rw [writeReg_reserved hlow]
      rfl
    · rw [writeReg_outOfRange (s := (s.dropInflight r.id).setPending _) hhigh]
      rfl
  · subst he
    rw [memoryStep_of_admissible hfind hadm, performRequest_write hk,
      onCompletion_of_store (s := (s.dropInflight r.id).setMem _) hr hentry]
    exact ⟨_, rfl, Memory.get_write8 (Memory.rising_of_wf hwf) r.addr.toNat v⟩

/-! ### Who changes data memory (R35, R52) -/

theorem Acted.mem {s t : State} (h : Acted s t) : t.mem = s.mem := by
  obtain ⟨-, -, -, -, -, -, hmem, -⟩ := h.frame
  exact hmem

theorem exec_mem {i : Instr} {s t : State} (h : exec i s = .next t) : t.mem = s.mem := by
  cases exec_cases h with
  | fault c => rfl
  | advance _ => rfl
  | jump off _ => rfl
  | halt _ => rfl
  | request a k e _ _ _ => rfl
  | alu d v _ _ _ _ => rfl
  | custom w k st u p _ _ ha => exact ha.mem
  | customFault w k st u c _ _ ha => exact ha.mem

theorem advance_mem {s t : State} (h : advance s = .next t) : t.mem = s.mem := by
  rcases advance_cases h with ⟨rfl, -⟩ | ⟨-, -, rfl⟩ | ⟨-, -, -, -, ⟨c, -, rfl⟩ | ⟨w, -, he⟩⟩
  · rfl
  · rfl
  · rfl
  · exact exec_mem he

theorem handlerStep_mem {s t : State} {k choice : Nat} (h : handlerStep s k choice = .next t) :
    t.mem = s.mem := by
  rcases handlerStep_cases h with
    rfl | ⟨-, st, u, -, ha, rfl | ⟨c, rfl⟩⟩ | ⟨-, st, regs, -, -, -, rfl⟩
  · rfl
  · exact ha.mem
  · exact ha.mem
  · rfl

theorem strayCompletion_mem {s t : State} {id : Nat} {data : Word}
    (h : strayCompletion s id data = .next t) : t.mem = s.mem := by
  rcases strayCompletion_cases h with rfl | ⟨-, -, rfl⟩
  · rfl
  · rfl

/-- The memory interface leaves data memory, or writes the value of an in-flight write that lies below
MAXADDR. -/
theorem memoryStep_mem {s t : State} {id : Nat} (h : memoryStep s id = .next t) :
    t.mem = s.mem ∨ ∃ r ∈ s.inflight, ∃ v, r.id = id ∧ r.kind = .write v ∧
      r.addr.toNat + 8 ≤ s.params.maxAddr.toNat ∧ t.mem = s.mem.write8 r.addr.toNat v := by
  rcases memoryStep_cases h with rfl | ⟨r, hr, hid, hadm, hp⟩
  · exact .inl rfl
  rcases performRequest_cases hp with ⟨-, hc⟩ | ⟨v, hk, hc⟩
  · obtain ⟨-, -, -, -, -, hmem, -⟩ := onCompletion_frame hc
    exact .inl hmem
  · obtain ⟨-, -, -, -, -, hmem, -⟩ := onCompletion_frame hc
    exact .inr ⟨r, hr, v, hid, hk, hadm, hmem⟩

/-- Settles O49, agent by agent. -/
theorem onlyPerformedWritesChangeMemory : Obligations.OnlyPerformedWritesChangeMemory := by
  intro s t hwf hstep
  rcases act_cases hstep with ⟨-, ha⟩ | ⟨-, -, rfl⟩ |
    ⟨-, ⟨id, he, hm⟩ | ⟨id, data, -, hc⟩ | ⟨k, choice, -, hh⟩⟩
  · exact .inl (advance_mem ha :)
  · exact .inl rfl
  · rcases memoryStep_mem hm with hmem | ⟨r, hr, v, rfl, hk, hadm, hmem⟩
    · exact .inl hmem
    · refine .inr ⟨r, v, hr, he, hk, hadm, fun x => ?_⟩
      rw [hmem]
      exact Memory.get_write8 (Memory.rising_of_wf hwf) r.addr.toNat v x
  · exact .inl (strayCompletion_mem hc :)
  · exact .inl (handlerStep_mem hh :)

/-! ### The schedule of a host that keeps its duties (R57, R156) -/

theorem dutifulEvent_defaultEvent (s : State) : DutifulEvent (defaultEvent s) := by
  unfold defaultEvent
  split
  · trivial
  split
  · trivial
  split
  · trivial
  · trivial

/-- The next event of a dutiful schedule is dutiful. -/
theorem State.Dutiful.nextEvent {s : State} (h : s.Dutiful) : DutifulEvent (nextEvent s) := by
  obtain ⟨hagenda, hlater⟩ := h
  rw [Machine.nextEvent]
  cases ha : s.agenda with
  | cons e rest => exact hagenda e (by simp [ha])
  | nil =>
    rw [List.headD_nil, laterEvent]
    cases hl : s.later with
    | fair => exact dutifulEvent_defaultEvent s
    | repeating events =>
      rw [hl] at hlater
      cases events with
      | nil => exact dutifulEvent_defaultEvent s
      | cons e rest => exact hlater e List.mem_cons_self
    | free seed position =>
      rw [hl] at hlater
      exact hlater position le_rfl

/-- A dutiful schedule stays one as it moves on. -/
theorem State.Dutiful.popEvent {s : State} (h : s.Dutiful) : (popEvent s).Dutiful := by
  obtain ⟨hagenda, hlater⟩ := h
  refine ⟨fun e he => hagenda e (List.mem_of_mem_tail he), ?_⟩
  rw [popEvent_later]
  split_ifs with ha
  · cases hl : s.later with
    | fair => trivial
    | repeating events =>
      rw [hl] at hlater
      intro e he
      rcases List.mem_append.1 he with he | he
      · exact hlater e (List.mem_of_mem_drop he)
      · exact hlater e (List.mem_of_mem_take he)
    | free seed position =>
      rw [hl] at hlater
      exact fun k hk => hlater k (Nat.le_of_succ_le hk)
  · exact hlater

/-! ### A request that crosses MAXADDR (R43, D12) -/

/-- The core waits, with no handlers, for the one request in flight, which crosses MAXADDR. -/
structure StuckOn (r : Request) (s : State) : Prop where
  running : s.run = .running
  noHandlers : s.handlers = []
  pending : s.pending ≠ []
  alone : s.inflight = [r]
  crosses : s.params.maxAddr.toNat < r.addr.toNat + 8

/-- A list whose requests have rising identifiers, and all the same one, lists one request at most. -/
theorem eq_singleton_of_id_eq {l : List Request} {r : Request} {id : Nat} (hr : r ∈ l)
    (hrise : l.Pairwise fun p q => p.id < q.id) (hid : ∀ q ∈ l, q.id = id) : l = [r] := by
  match l, hrise with
  | [q], _ => rw [List.mem_singleton.1 hr]
  | p :: q :: rest, hrise =>
    have hpq : p.id < q.id := List.rel_of_pairwise_cons hrise List.mem_cons_self
    rw [hid p (by simp), hid q (by simp)] at hpq
    exact absurd hpq (lt_irrefl id)

/-- Every request in flight has its entry, so where at most one is pending there is no other request
in flight (R34, R102). -/
theorem State.Inv.inflight_eq_singleton {s : State} (h : s.Inv) (hone : s.pending.length ≤ 1)
    {r : Request} (hr : r ∈ s.inflight) : s.inflight = [r] ∧ s.pending ≠ [] := by
  obtain ⟨-, -, -, ⟨hrise, hentry⟩, -, -, -⟩ := h
  obtain ⟨-, p, hp, -, -⟩ := hentry r hr
  have hlen : s.pending.length = 1 := le_antisymm hone (List.length_pos_of_mem hp)
  obtain ⟨p, hpend⟩ := List.length_eq_one_iff.1 hlen
  have hid : ∀ q ∈ s.inflight, q.id = p.1 := by
    intro q hq
    obtain ⟨-, p', hp', hid, -⟩ := hentry q hq
    rw [hpend, List.mem_singleton] at hp'
    rw [← hid, hp']
  exact ⟨eq_singleton_of_id_eq hr hrise hid, by simp [hpend]⟩

theorem StuckOn.advance {r : Request} {s t : State} (h : StuckOn r s)
    (ha : advance s = .next t) : ∃ n, t = s.setStall n := by
  rcases advance_cases ha with ⟨rfl, -⟩ | ⟨-, -, rfl⟩ | ⟨-, -, hp, -⟩
  · exact ⟨t.stall, rfl⟩
  · exact ⟨s.stall - 1, rfl⟩
  · exact absurd hp h.pending

theorem StuckOn.memoryStep {r : Request} {s t : State} {id : Nat} (h : StuckOn r s)
    (hm : memoryStep s id = .next t) : t = s := by
  rcases memoryStep_cases hm with rfl | ⟨q, hq, -, hadm, -⟩
  · rfl
  · rw [h.alone, List.mem_singleton] at hq
    subst hq
    exact absurd hadm (Nat.not_le.2 h.crosses)

theorem StuckOn.handlerStep {r : Request} {s t : State} {k choice : Nat} (h : StuckOn r s)
    (hs : handlerStep s k choice = .next t) : t = s := by
  rw [Machine.handlerStep, h.noHandlers] at hs
  cases hs
  rfl

/-- A dutiful event leaves a stuck core stuck: a tick at most counts a latency down. -/
theorem StuckOn.act {r : Request} {s t : State} {e : Event} (h : StuckOn r s)
    (hd : DutifulEvent e) (hact : act s e = .next t) :
    ∃ n b, t = (s.setStall n).setStarted b := by
  rcases act_cases hact with ⟨-, ha⟩ | ⟨-, -, rfl⟩ |
    ⟨-, ⟨id, -, hm⟩ | ⟨id, data, rfl, -⟩ | ⟨k, choice, -, hh⟩⟩
  · have hticked : StuckOn r (s.setStarted true) :=
      ⟨h.running, h.noHandlers, h.pending, h.alone, h.crosses⟩
    obtain ⟨n, rfl⟩ := hticked.advance ha
    exact ⟨n, true, rfl⟩
  · exact ⟨t.stall, t.started, rfl⟩
  · rw [h.memoryStep hm]
    exact ⟨s.stall, s.started, rfl⟩
  · exact hd.elim
  · rw [h.handlerStep hh]
    exact ⟨s.stall, s.started, rfl⟩

/-- `t` is `s` but for the latency counter, the first tick and the schedule. -/
def Waited (s t : State) : Prop :=
  ∃ n b agenda later, t = (((s.setStall n).setStarted b).setAgenda agenda).setLater later

theorem Waited.refl (s : State) : Waited s s := ⟨s.stall, s.started, s.agenda, s.later, rfl⟩

theorem Waited.popEvent {s t : State} (h : Waited s t) : Waited s (popEvent t) := by
  obtain ⟨n, b, agenda, later, rfl⟩ := h
  exact ⟨n, b, _, _, rfl⟩

theorem Waited.ticked {s t : State} (h : Waited s t) (n : Nat) (b : Bool) :
    Waited s ((t.setStall n).setStarted b) := by
  obtain ⟨-, -, agenda, later, rfl⟩ := h
  exact ⟨n, b, agenda, later, rfl⟩

theorem StuckOn.of_waited {r : Request} {s t : State} (h : StuckOn r s) (hw : Waited s t) :
    StuckOn r t := by
  obtain ⟨n, b, agenda, later, rfl⟩ := hw
  exact ⟨h.running, h.noHandlers, h.pending, h.alone, h.crosses⟩

/-- From a stuck core every step of a dutiful schedule only waits, and the schedule stays dutiful. -/
theorem StuckOn.step {r : Request} {s t u : State} (h : StuckOn r s)
    (ht : Waited s t ∧ t.Dutiful) (hstep : step t = .next u) : Waited s u ∧ u.Dutiful := by
  obtain ⟨hw, hd⟩ := ht
  have hpop : Waited s (popEvent t) := hw.popEvent
  obtain ⟨n, b, rfl⟩ := (h.of_waited hpop).act hd.nextEvent hstep
  exact ⟨hpop.ticked n b, hd.popEvent⟩

/-- Settles O16, by induction on the run: the core is stuck on the request, and every step of a stuck
core only waits. -/
theorem crossingRequestStallsForEver : Obligations.CrossingRequestStallsForEver := by
  intro s r hinv hfixed hrunning hr hcross hd k t hrun
  obtain ⟨hnone, hone⟩ := hfixed
  obtain ⟨halone, hpend⟩ := hinv.inflight_eq_singleton hone hr
  have hstuck : StuckOn r s := ⟨hrunning, hnone, hpend, halone, hcross⟩
  obtain ⟨⟨n, b, agenda, later, rfl⟩, -⟩ := core_run_keeps (P := fun u => Waited s u ∧ u.Dutiful)
    (fun _ _ => hstuck.step) hrun ⟨Waited.refl s, hd⟩
  exact ⟨hrunning, rfl, rfl, rfl, hr⟩

end Sys2Proof.Machine
end

section
/-! PROOFS. The codec (30_encoding.md). Two facts carry the statements: decoding the encoding of a
well-formed instruction gives it back (`decodeWord_encode`), and encoding what a word decodes to clears
the bits its format ignores (`encode_decodeWord`). -/

namespace Sys2Proof.Machine

/-- Settles O3. -/
theorem codecFields : Obligations.CodecFields := fieldsOf_wordOfBytes

/-! ### Custom words (R67) -/

/-- A word decodes to a custom instruction only if its opcode is of class custom, and it is then
handed on whole (R64, R82). -/
theorem decodeWord_eq_custom_iff {w v : InstrWord} :
    decodeWord w = .custom v ↔ v = w ∧ opClass (byteOfWord w 0) = .custom := by
  constructor
  · refine fun h => ⟨?_, opClass_of_decodeWord_custom h⟩
    refine decodeWord_elim (P := fun i => i = .custom v → v = w) w
      (fun op hop _ hi => ?_) (fun _ hi => (Instr.custom.inj hi).symm) h
    exact absurd hi ((instrOfFields_fixed (fieldsOf w) w op hop).2 v)
  · rintro ⟨rfl, hclass⟩
    exact decodeWord_elim (P := (· = .custom v)) v
      (fun op hop hv => absurd (hv ▸ hop) (notMem_fixed_iff.2 hclass)) fun _ => rfl

/-- The one check of a well-formed instruction is on custom words (R67, R68). -/
theorem wellFormed_iff {i : Instr} :
    i.wellFormed = true ↔ ∀ w, i = .custom w → byteOfWord w 0 ∉ Opcode.fixed := by
  cases i with
  | custom w => simp [Instr.wellFormed, customOpcodeOk]
  | _ => exact iff_of_true rfl nofun

theorem wellFormed_decodeWord (w : InstrWord) : (decodeWord w).wellFormed = true := by
  refine wellFormed_iff.2 fun v hv => ?_
  obtain ⟨rfl, hclass⟩ := decodeWord_eq_custom_iff.1 hv
  exact notMem_fixed_iff.2 hclass

/-- Settles O5. -/
theorem fixedTableDecodesFirst : Obligations.FixedTableDecodesFirst :=
  ⟨fun _ => rfl, fun _ _ => decodeWord_eq_custom_iff, opcode_decodeWord⟩

theorem decode_of_length_lt {bs : List Byte} (h : bs.length < 4) :
    decode bs = .error (.truncated bs.length) := by
  match bs, h with
  | [], _ | [_], _ | [_, _], _ | [_, _, _], _ => rfl
  | _ :: _ :: _ :: _ :: _, h => exact absurd h (by simp)

/-- Settles O2. -/
theorem decodingIsTotal : Obligations.DecodingIsTotal :=
  ⟨fun _ _ _ _ _ => ⟨_, wellFormed_decodeWord _, rfl⟩, fun _ => decode_of_length_lt⟩

/-! ### Decoding an encoding (R70) -/

/-- The fields of a word of format A (R62). -/
theorem fieldsOf_encodeA (op : Byte) (addr : Half) (r : Byte) : fieldsOf (encodeA op addr r) =
    { opcode := op, reg1 := addr.setWidth 8, reg2 := addr.extractLsb' 8 8, writeReg := r
      jumpOffset16 := (addr.extractLsb' 8 8).setWidth 16 ||| r.setWidth 16 <<< 8
      absAddr16 := addr } := by
  rw [encodeA_eq, fieldsOf_wordOfBytes, half_bytes]

/-- The fields of a word of format J (R63). -/
theorem fieldsOf_encodeJ (op t : Byte) (off : Half) : fieldsOf (encodeJ op t off) =
    { opcode := op, reg1 := t, reg2 := off.setWidth 8, writeReg := off.extractLsb' 8 8
      jumpOffset16 := off
      absAddr16 := t.setWidth 16 ||| (off.setWidth 8).setWidth 16 <<< 8 } := by
  rw [encodeJ_eq, fieldsOf_wordOfBytes, half_bytes]

/-- Decoding the encoding of a well-formed instruction gives it back (R70). -/
theorem decodeWord_encode {i : Instr} (h : i.wellFormed = true) : decodeWord (encode i) = i := by
  cases i with
  | custom w =>
    exact decodeWord_eq_custom_iff.2 ⟨rfl, notMem_fixed_iff.1 (wellFormed_iff.1 h w rfl)⟩
  | lda | sta => rw [encode, decodeWord, fieldsOf_encodeA]; rfl
  | jzero | jneg | jpos => rw [encode, decodeWord, fieldsOf_encodeJ]; rfl
  | noop | halt => rw [encode, decodeWord, encodeN_eq, fieldsOf_wordOfBytes]; rfl
  | ld | st | add | sub | mul | div | mod | and | or | xor | not =>
    rw [encode, decodeWord, encodeR, fieldsOf_wordOfBytes]; rfl

/-! ### Encoding a decoding: the ignored bits are cleared (R69, R70) -/

/-- A mask of four bytes acts byte by byte. -/
theorem and_wordOfBytes (w : InstrWord) (m0 m1 m2 m3 : Byte) : w &&& wordOfBytes m0 m1 m2 m3 =
    wordOfBytes (byteOfWord w 0 &&& m0) (byteOfWord w 1 &&& m1) (byteOfWord w 2 &&& m2)
      (byteOfWord w 3 &&& m3) := by
  conv_lhs => rw [← wordOfBytes_bytes w]
  apply BitVec.eq_of_getLsbD_eq
  intro i hi
  simp only [BitVec.getLsbD_and, getLsbD_wordOfBytes]
  split_ifs <;> rfl

@[simp] theorem and_byteMask (b : Byte) : b &&& 255#8 = b := BitVec.and_allOnes

/-- The high byte of a 16-bit field. -/
theorem field_highByte (w : InstrWord) (k : Nat) :
    (w.extractLsb' k 16).extractLsb' 8 8 = w.extractLsb' (k + 8) 8 := by
  apply BitVec.eq_of_getLsbD_eq
  intro i hi
  simp [hi, show 8 + i < 16 by omega, Nat.add_assoc]

section
variable {w : InstrWord} {op : Byte}

/-- Format N keeps byte 0 (R64). -/
theorem encodeN_of_word (h : byteOfWord w 0 = op) :
    encodeN op = w &&& wordOfBytes 0xFF 0 0 0 := by
  rw [encodeN_eq, and_wordOfBytes, h]
  simp

/-- Format R keeps the whole word (R60). -/
theorem encodeR_of_word (h : byteOfWord w 0 = op) :
    encodeR op (byteOfWord w 1) (byteOfWord w 2) (byteOfWord w 3) =
      w &&& wordOfBytes 0xFF 0xFF 0xFF 0xFF := by
  rw [encodeR, and_wordOfBytes, h]
  simp

/-- Without a second register, format R or M keeps all but byte 2 (R61, R115). -/
theorem encodeR_of_word_noReg2 (h : byteOfWord w 0 = op) :
    encodeR op (byteOfWord w 1) 0 (byteOfWord w 3) = w &&& wordOfBytes 0xFF 0xFF 0 0xFF := by
  rw [encodeR, and_wordOfBytes, h]
  simp

/-- Without a destination, format M keeps all but byte 3 (R61). -/
theorem encodeR_of_word_noWriteReg (h : byteOfWord w 0 = op) :
    encodeR op (byteOfWord w 1) (byteOfWord w 2) 0 = w &&& wordOfBytes 0xFF 0xFF 0xFF 0 := by
  rw [encodeR, and_wordOfBytes, h]
  simp

/-- Format A keeps the whole word, for its address field holds bytes 1 and 2 (R62). -/
theorem encodeA_of_word (h : byteOfWord w 0 = op) :
    encodeA op (w.extractLsb' 8 16) (byteOfWord w 3) =
      w &&& wordOfBytes 0xFF 0xFF 0xFF 0xFF := by
  rw [encodeA_eq, BitVec.setWidth_extractLsb'_of_le (by decide), field_highByte]
  exact encodeR_of_word h

/-- Format J keeps the whole word, for its offset field holds bytes 2 and 3 (R63). -/
theorem encodeJ_of_word (h : byteOfWord w 0 = op) :
    encodeJ op (byteOfWord w 1) (w.extractLsb' 16 16) =
      w &&& wordOfBytes 0xFF 0xFF 0xFF 0xFF := by
  rw [encodeJ_eq, BitVec.setWidth_extractLsb'_of_le (by decide), field_highByte]
  exact encodeR_of_word h

end

/-- The encoding of what a word of the fixed table decodes to, opcode by opcode (R60 to R63). -/
theorem encode_instrOfFields (w : InstrWord) : ∀ op ∈ Opcode.fixed, byteOfWord w 0 = op →
    encode (instrOfFields { fieldsOf w with opcode := op } w) = w &&& usedBits op := by
  refine forall_fixed ?_
  simp only [List.forall_mem_cons]
  exact ⟨encodeN_of_word,
    encodeR_of_word_noReg2, encodeA_of_word, encodeR_of_word_noWriteReg, encodeA_of_word,
    encodeR_of_word, encodeR_of_word, encodeR_of_word, encodeR_of_word, encodeR_of_word,
    encodeR_of_word, encodeR_of_word, encodeR_of_word, encodeR_of_word_noReg2,
    encodeJ_of_word, encodeJ_of_word, encodeJ_of_word,
    encodeN_of_word, nofun⟩

/-- A custom word has no ignored bits (R64). -/
theorem usedBits_of_notMem_fixed : ∀ op ∉ Opcode.fixed, usedBits op = BitVec.allOnes 32 := by
  decide

/-- Encoding what a word decodes to clears the bits its format ignores and keeps the others. -/
theorem encode_decodeWord (w : InstrWord) :
    encode (decodeWord w) = w &&& usedBits (byteOfWord w 0) := by
  refine decodeWord_elim (P := fun i => encode i = w &&& usedBits (byteOfWord w 0)) w
    (fun op hop hw => ?_) fun hw => ?_
  · rw [hw]
    exact encode_instrOfFields w op hop hw
  · rw [usedBits_of_notMem_fixed _ hw, BitVec.and_allOnes, encode]

/-- Settles O4: the two words decode to instructions of one encoding. -/
theorem ignoredFieldsDoNotMatter : Obligations.IgnoredFieldsDoNotMatter := by
  intro v w hop hused
  have henc : encode (decodeWord v) = encode (decodeWord w) := by
    rw [encode_decodeWord, encode_decodeWord, hused, hop]
  rw [← decodeWord_encode (wellFormed_decodeWord v), henc,
    decodeWord_encode (wellFormed_decodeWord w)]

/-- An encoding is zero in every field its format ignores (R70, D21). -/
theorem encode_and_not_usedBits {i : Instr} (h : i.wellFormed = true) :
    encode i &&& ~~~ usedBits i.opcode = 0 := by
  have hop : byteOfWord (encode i) 0 = i.opcode := by
    rw [← opcode_decodeWord, decodeWord_encode h]
  have hused : encode i = encode i &&& usedBits i.opcode := by
    conv_lhs => rw [← decodeWord_encode h, encode_decodeWord, hop]
  rw [hused, BitVec.and_assoc, BitVec.and_not_self]
  exact BitVec.and_zero

/-- Settles O1. -/
theorem decodeEncodeRoundTrip : Obligations.DecodeEncodeRoundTrip := by
  refine ⟨fun _ _ _ _ => rfl, fun _ _ _ => rfl, fun _ _ _ => rfl, fun _ => rfl,
    fun _ => encode_and_not_usedBits, fun i rest h => ?_⟩
  rw [decode_bytesOfWord, decodeWord_encode h]

end Sys2Proof.Machine
end

section
/-! PROOFS. The state machine (40_fetch_execute.md): what a tick does at each of its gates, said once
per gate (`advance_of_*`), the runs of ticks that an induction makes of it, and NOOP and HALT. -/

namespace Sys2Proof.Machine

open Sys2Proof.Statements

/-! ### The tick, gate by gate (R76) -/

/-- A tick is the core's `advance` once the schedule has moved on and the first tick is past (R11,
log 4, log 23). -/
theorem step_of_tick {s : State} (h : nextEvent s = .tick) : step s = advance (ticking s) :=
  step_of_event h

/-- A tick after the end of the run changes nothing (R85, R86). -/
theorem advance_of_not_running {s : State} (hr : s.run ≠ .running) : advance s = .next s := by
  rw [advance]
  cases h : s.run with
  | running => exact absurd h hr
  | halted => rfl
  | faulted c => rfl

/-- A latency tick (R78). -/
theorem advance_of_latency {s : State} (hr : s.run = .running) (hs : 0 < s.stall) :
    advance s = .next (s.setStall (s.stall - 1)) := by
  simp only [advance, hr, if_pos hs]

theorem anyBusy_iff {s : State} : anyBusy s = true ↔ ∃ h ∈ s.handlers, h.state.busy = true :=
  List.any_eq_true

theorem hasPending_iff {s : State} : hasPending s = true ↔ s.pending ≠ [] := by
  simp [hasPending]

/-- A tick stalled on memory or on a handler (R79). -/
theorem advance_of_waiting {s : State} (hr : s.run = .running) (hs : s.stall = 0)
    (hw : s.pending ≠ [] ∨ ∃ h ∈ s.handlers, h.state.busy = true) : advance s = .next s := by
  rw [← hasPending_iff, ← anyBusy_iff, ← Bool.or_eq_true] at hw
  simp only [advance, hr, if_neg hs.not_gt, if_pos hw]

/-- With every gate open neither memory nor a handler stalls the tick (R77). -/
theorem not_waiting_of_gatesOpen {s : State} (h : GatesOpen s) :
    (hasPending s || anyBusy s) = false := by
  obtain ⟨-, -, hp, hb⟩ := h
  have hidle : anyBusy s = false := List.any_eq_false.2 fun g hg => Bool.eq_false_iff.1 (hb g hg)
  rw [hidle, hasPending, hp]
  rfl

/-- A fetch that raises ends the tick (R80, R138). -/
theorem advance_of_fetch_error {s : State} {c : FatalCondition} (h : GatesOpen s)
    (hf : imgRead32 s s.pc = .error c) : advance s = .next (s.setRun (.faulted c)) := by
  have hw := not_waiting_of_gatesOpen h
  obtain ⟨hr, hs, -⟩ := h
  simp [advance, hr, hs, hw, hf, raise]

/-- A fetched word is decoded and dispatched (R81, R82). -/
theorem advance_of_fetch {s : State} {w : InstrWord} (h : GatesOpen s)
    (hf : imgRead32 s s.pc = .ok w) : advance s = exec (decodeWord w) s := by
  have hw := not_waiting_of_gatesOpen h
  obtain ⟨hr, hs, -⟩ := h
  simp [advance, hr, hs, hw, hf]

/-- Settles O17, one lemma per gate. -/
theorem tickTransitionRule : Obligations.TickTransitionRule := by
  intro s he
  rw [step_of_tick he]
  exact ⟨fun hr => advance_of_not_running hr, fun hr hs => advance_of_latency hr hs,
    fun hr hs hw => advance_of_waiting hr hs hw⟩

/-! ### Fetch, decode, dispatch (R80 to R82) -/

/-- Bytes that decode begin with the four bytes of the decoded word (R58, R71). -/
theorem decode_ok {bs rest : List Byte} {i : Instr} (h : decode bs = .ok (i, rest)) :
    ∃ b0 b1 b2 b3, bs = b0 :: b1 :: b2 :: b3 :: rest ∧ i = decodeWord (wordOfBytes b0 b1 b2 b3) := by
  match bs, h with
  | b0 :: b1 :: b2 :: b3 :: _, rfl => exact ⟨b0, b1, b2, b3, rfl, rfl⟩

/-- A fetch inside the bound reads the first four of the image bytes from its address on (R41). -/
theorem imgRead32_of_drop {s : State} {a : Word} {b0 b1 b2 b3 : Byte} {rest : List Byte}
    (hmax : a < s.params.maxAddr) (hd : s.image.body.drop a.toNat = b0 :: b1 :: b2 :: b3 :: rest) :
    imgRead32 s a = .ok (wordOfBytes b0 b1 b2 b3) := by
  have hbyte : ∀ k, s.image.body[a.toNat + k]? = (b0 :: b1 :: b2 :: b3 :: rest)[k]? := fun k => by
    rw [← hd, List.getElem?_drop]
  obtain ⟨-, -, hword⟩ := fetchRule s a
  exact hword b0 b1 b2 b3 hmax (hbyte 0) (hbyte 1) (hbyte 2) (hbyte 3)

/-- Settles O18. -/
theorem stepRunsTheDecodedInstruction : Obligations.StepRunsTheDecodedInstruction := by
  intro s i rest he hopen hmax hdec
  obtain ⟨b0, b1, b2, b3, hdrop, rfl⟩ := decode_ok hdec
  rw [step_of_tick he]
  exact advance_of_fetch (s := ticking s) hopen (imgRead32_of_drop hmax hdrop)

/-- Settles O19. -/
theorem fetchFaultEndsTheRun : Obligations.FetchFaultEndsTheRun := by
  intro s he hopen hrange
  rw [step_of_tick he]
  exact advance_of_fetch_error (s := ticking s) hopen (imgRead32_error hrange)

/-! ### Runs of ticks (R78, R79) -/

/-- A tick that the agenda lists first. -/
theorem step_of_listed_tick {s : State} {rest : List Event} (h : s.agenda = .tick :: rest) :
    step s = advance ((s.setAgenda rest).setStarted true) := by
  obtain ⟨he, hpop⟩ := nextEvent_cons s h
  rw [step_of_event he, hpop, act]

/-- A listed tick counts a latency down (R78). -/
theorem step_of_latency {s : State} {n : Nat} {rest : List Event} (hr : s.run = .running)
    (hs : s.stall = n + 1) (ha : s.agenda = .tick :: rest) :
    step s = .next { s with stall := n, agenda := rest, started := true } := by
  have hpos : 0 < s.stall := hs ▸ n.succ_pos
  rw [step_of_listed_tick ha,
    advance_of_latency (s := (s.setAgenda rest).setStarted true) hr hpos,
    State.setStarted_stall, State.setAgenda_stall, hs]
  rfl

/-- Settles O22, by induction on the latency counter. -/
theorem latencyStallsFetch : Obligations.LatencyStallsFetch := by
  intro s rest hr ha
  induction hn : s.stall generalizing s with
  | zero =>
    cases s
    cases hn
    cases ha
    simp [core_run_zero]
  | succ n ih =>
    rw [hn, List.replicate_succ, List.cons_append] at ha
    have hrun := ih { s with
        stall := n
        agenda := List.replicate n .tick ++ rest
        started := true } hr rfl rfl
    refine (core_run_succ (step_of_latency hr hn ha) n).trans (hrun.trans ?_)
    simp

/-- Listed ticks, however many, leave a core that waits for memory as it was (R79, R90). -/
theorem core_run_listed_ticks {s : State} {k : Nat} {rest : List Event} (hr : s.run = .running)
    (hs : s.stall = 0) (hp : s.pending ≠ []) (ha : s.agenda = List.replicate k .tick ++ rest) :
    Sys2Proof.core.run k s = .next { s with
      agenda := rest
      started := s.started || decide (0 < k) } := by
  induction k generalizing s with
  | zero =>
    cases s
    cases ha
    simp [core_run_zero]
  | succ k ih =>
    rw [List.replicate_succ, List.cons_append] at ha
    have hstep : step s = .next { s with
        agenda := List.replicate k .tick ++ rest
        started := true } :=
      (step_of_listed_tick ha).trans (advance_of_waiting hr hs (.inl hp))
    have hrun := ih (s := { s with
        agenda := List.replicate k .tick ++ rest
        started := true }) hr hs hp rfl
    refine (core_run_succ hstep k).trans (hrun.trans ?_)
    simp

/-- So do the ticks of a schedule of ticks alone, for ever (R165). -/
theorem core_run_repeated_ticks {s : State} (k : Nat) (hr : s.run = .running) (hs : s.stall = 0)
    (hp : s.pending ≠ []) (ha : s.agenda = []) (hl : s.later = .repeating [.tick]) :
    Sys2Proof.core.run k s = .next { s with started := s.started || decide (0 < k) } := by
  induction k generalizing s with
  | zero => simp [core_run_zero]
  | succ k ih =>
    obtain ⟨he, hpop⟩ := nextEvent_repeating s ha hl
    have hstep : step s = .next { s with started := true } := by
      rw [step_of_event he, hpop]
      exact advance_of_waiting hr hs (.inl hp)
    have hrun := ih (s := { s with started := true }) hr hs hp ha hl
    refine (core_run_succ hstep k).trans (hrun.trans ?_)
    simp

/-- Settles O23. -/
theorem noFetchWhileRequestPending : Obligations.NoFetchWhileRequestPending :=
  fun _ k hr hs hp =>
    ⟨fun _ ha => core_run_listed_ticks hr hs hp ha, core_run_repeated_ticks k hr hs hp⟩

/-! ### NOOP and HALT (R87, R88) -/

theorem decodeWord_wordOfBytes (b0 b1 b2 b3 : Byte) : decodeWord (wordOfBytes b0 b1 b2 b3) =
    instrOfFields
      { opcode := b0, reg1 := b1, reg2 := b2, writeReg := b3
        jumpOffset16 := half b2 b3, absAddr16 := half b1 b2 } (wordOfBytes b0 b1 b2 b3) := by
  rw [decodeWord, fieldsOf_wordOfBytes]

/-- Settles O20. -/
theorem noopEffect : Obligations.NoopEffect :=
  ⟨fun b1 b2 b3 => decodeWord_wordOfBytes 0 b1 b2 b3, fun _ => rfl⟩

/-- Settles O21. -/
theorem haltEffect : Obligations.HaltEffect :=
  ⟨fun b1 b2 b3 => decodeWord_wordOfBytes 255 b1 b2 b3, fun _ => rfl⟩

/-! ### Who sets the latency counter (R84) -/

/-- Settles O24: of the shapes of `exec_cases` only an ALU instruction's writes the counter. -/
theorem onlyAluSetsLatency : Obligations.OnlyAluSetsLatency := by
  intro i s t halu h
  cases exec_cases h with
  | fault c => rfl
  | advance _ => rfl
  | jump off _ => rfl
  | halt _ => rfl
  | request a k e _ _ _ => rfl
  | alu d v hop _ _ _ => exact absurd hop halu
  | custom w k st u p _ _ ha =>
    obtain ⟨-, hstall, -⟩ := ha.frame
    exact hstall
  | customFault w k st u c _ _ ha =>
    obtain ⟨-, hstall, -⟩ := ha.frame
    exact hstall

end Sys2Proof.Machine
end

section
/-! PROOFS. Loads and stores (41_load_store.md): the two halves of an access, its issue and the
completion that performs it, and the one request that fixed instructions keep. -/

namespace Sys2Proof.Machine

open Sys2Proof.Statements

/-! ### Completions (R95, R104) -/

theorem onCompletion_of_ended {s : State} (hr : s.run ≠ .running) (id : Nat) (data : Word) :
    onCompletion s id data = .next s := if_neg hr

/-- A load's completion, by its destination: written, reserved, or out of range, each in the state
`t` without the entry, for the entry is deleted before the write (R95). -/
theorem onCompletion_of_load_cases {s t : State} {id : Nat} {d : Byte} (hr : s.run = .running)
    (hf : s.pending.find id = some (some d)) (ht : s.setPending (s.pending.erase id) = t)
    (data : Word) :
    (Writable s d → onCompletion s id data = .next
      (t.setRegs (t.regs.set (d.toNat - 2) data))) ∧
    (d.toNat < 2 → onCompletion s id data = .next
      (t.setRun (.faulted (.reservedRegisterWrite d t.pc)))) ∧
    (s.n ≤ d.toNat → onCompletion s id data = .next
      (t.setRun (.faulted (.registerIndexOutOfRange d t.pc)))) := by
  have hn : t.n = s.n := by rw [← ht, State.setPending_n]
  rw [onCompletion_of_load hr hf, ht]
  refine ⟨fun ⟨h2, hlt⟩ => ?_, fun hlow => ?_, fun hhigh => ?_⟩
  · rw [writeReg_general h2 (hlt.trans_eq hn.symm), commit_ok]
  · rw [writeReg_reserved hlow, commit_error]
  · rw [writeReg_outOfRange (hn.trans_le hhigh), commit_error]

/-- Settles O29. -/
theorem completionRule : Obligations.CompletionRule := by
  intro s id data
  exact ⟨fun hr => onCompletion_of_ended hr id data,
    fun hr => ⟨fun hf => onCompletion_of_unknown hr hf data,
      fun hf => onCompletion_of_store hr hf data,
      fun _ hf => onCompletion_of_load_cases hr hf rfl data⟩⟩

/-! ### Issuing (R93, R94): the checks in their order, then the request and the advance -/

theorem loadFrom_error (s : State) (c : FatalCondition) (d : Byte) :
    loadFrom s (.error c) d = .next (faultedWith s c) := rfl

theorem storeTo_error (s : State) (c : FatalCondition) (v : Byte) :
    storeTo s (.error c) v = .next (faultedWith s c) := rfl

section
variable {s : State} {a : Word}

theorem loadFrom_of_bound (ha : ¬ a < s.params.maxAddr) (d : Byte) :
    loadFrom s (.ok a) d = .next (faultedWith s (.addressOutOfRange a s.pc)) := by
  rw [loadFrom, ok_bind, issueLoad, if_neg ha]
  rfl

theorem loadFrom_issues (ha : a < s.params.maxAddr) (d : Byte) :
    loadFrom s (.ok a) d = .next (issued s a .read (some d)) := by
  rw [loadFrom, ok_bind, issueLoad_ok.2 ⟨ha, rfl⟩]
  rfl

theorem storeTo_of_bound (ha : ¬ a < s.params.maxAddr) (v : Byte) :
    storeTo s (.ok a) v = .next (faultedWith s (.addressOutOfRange a s.pc)) := by
  rw [storeTo, ok_bind, issueStore, if_neg ha]
  rfl

theorem storeTo_of_badValue {v : Byte} {c : FatalCondition} (ha : a < s.params.maxAddr)
    (hv : readReg s v = .error c) : storeTo s (.ok a) v = .next (faultedWith s c) := by
  rw [storeTo, ok_bind, issueStore, if_pos ha, hv]
  rfl

theorem storeTo_issues {v : Byte} {x : Word} (ha : a < s.params.maxAddr)
    (hv : readReg s v = .ok x) : storeTo s (.ok a) v = .next (issued s a (.write x) none) := by
  rw [storeTo, ok_bind, issueStore_ok.2 ⟨ha, x, hv, rfl⟩]
  rfl

end

/-! ### Performing the request of an idle core (R44) -/

/-- The request of a core with none in flight is the one the memory interface finds. -/
theorem find_issued_inflight {s : State} (h : s.inflight = []) (a : Word) (k : RequestKind)
    (e : Option Byte) : ((issued s a k e).inflight.find? fun q => q.id == s.nextId) =
      some { id := s.nextId, addr := a, kind := k } := by
  simp [h]

/-- The entry of a core with none pending is the one its completion finds. -/
theorem find_issued_pending {s : State} (h : s.pending = []) (a : Word) (k : RequestKind)
    (e : Option Byte) : (issued s a k e).pending.find s.nextId = some e := by
  rw [issued, Pending.find_insert (by simp [h]), if_pos rfl]

/-- Once the request of an idle core and its entry have left, the issue shows in the program counter
and in the identifiers only. -/
theorem issued_retired {s : State} (hpend : s.pending = []) (hflight : s.inflight = []) (a : Word)
    (k : RequestKind) (e : Option Byte) :
    ((issued s a k e).dropInflight s.nextId).setPending
        ((issued s a k e).pending.erase s.nextId) =
      { s with nextId := s.nextId + 1, pc := s.pc + 4 } := by
  simp [State.dropInflight, State.setInflight, State.setPending, Pending.insert, Pending.erase,
    hpend, hflight]

/-- An address whose eight bytes lie below MAXADDR passes the bound (R43). -/
theorem lt_maxAddr_of_admissible {p : Params} {a : Word} (h : a.toNat + 8 ≤ p.maxAddr.toNat) :
    a < p.maxAddr := by
  rw [BitVec.lt_def]
  omega

/-- The completion of a load that an instruction issues wherever the bound lets it (R95). -/
theorem loadCompletion_of_issues {i : Instr} {a : Word} {d : Byte} {s : State}
    (hi : a < s.params.maxAddr → exec i s = .next (issued s a .read (some d))) :
    LoadCompletion i a d s := by
  intro hr hpend hflight hadm
  refine ⟨_, hi (lt_maxAddr_of_admissible hadm), ?_⟩
  have hstep : memoryStep (issued s a .read (some d)) s.nextId =
      onCompletion ((issued s a .read (some d)).dropInflight s.nextId) s.nextId
        (s.mem.read8 a.toNat) :=
    (memoryStep_of_admissible (r := { id := s.nextId, addr := a, kind := .read })
      (find_issued_inflight hflight a .read (some d)) hadm).trans (performRequest_read rfl)
  rw [hstep]
  exact onCompletion_of_load_cases (s := (issued s a .read (some d)).dropInflight s.nextId) hr
    (find_issued_pending hpend a .read (some d)) (issued_retired hpend hflight a .read (some d)) _

/-- The completion of a store that an instruction issues wherever the bound lets it (R95). -/
theorem storeCompletion_of_issues {i : Instr} {a x : Word} {s : State}
    (hi : a < s.params.maxAddr → exec i s = .next (issued s a (.write x) none)) :
    StoreCompletion i a x s := by
  intro hr hpend hflight hwf hadm
  obtain ⟨-, performed⟩ := performedRequest
  obtain ⟨-, rfl, -, hwrite⟩ := performed (issued s a (.write x) none)
    { id := s.nextId, addr := a, kind := .write x } none hr hwf
    (find_issued_inflight hflight a (.write x) none)
    (find_issued_pending hpend a (.write x) none) hadm
  obtain ⟨m, hstep, hget⟩ := hwrite x rfl rfl
  refine ⟨_, m, hi (lt_maxAddr_of_admissible hadm), hstep.trans ?_, hget⟩
  exact congrArg (fun t => Host.Outcome.next (t.setMem m))
    (issued_retired hpend hflight a (.write x) none)

/-! ### The four instructions (R97 to R100): a load or a store, once its address is at hand -/

theorem exec_lda (s : State) (addr : Half) (d : Byte) :
    exec (.lda addr d) s = loadFrom s (.ok (BitVec.ofNat 64 addr.toNat)) d := by
  rw [← absoluteAddress_eq]
  rfl

theorem exec_sta (s : State) (addr : Half) (v : Byte) :
    exec (.sta addr v) s = storeTo s (.ok (BitVec.ofNat 64 addr.toNat)) v := by
  rw [← absoluteAddress_eq]
  rfl

/-- Everything an instruction does that is a load from `a` into `d`. -/
theorem loadEffect_of_exec {i : Instr} {s : State} {a : Word} {d : Byte}
    (hexec : exec i s = loadFrom s (.ok a) d) :
    (¬ a < s.params.maxAddr → exec i s = .next (faultedWith s (.addressOutOfRange a s.pc))) ∧
    (a < s.params.maxAddr → exec i s = .next (issued s a .read (some d))) ∧
    LoadCompletion i a d s := by
  have hissue := fun hb => hexec.trans (loadFrom_issues hb d)
  exact ⟨fun hb => hexec.trans (loadFrom_of_bound hb d), hissue, loadCompletion_of_issues hissue⟩

/-- Everything an instruction does that is a store of register `v` at `a`. -/
theorem storeEffect_of_exec {i : Instr} {s : State} {a : Word} {v : Byte}
    (hexec : exec i s = storeTo s (.ok a) v) :
    (¬ a < s.params.maxAddr → exec i s = .next (faultedWith s (.addressOutOfRange a s.pc))) ∧
    (∀ c, a < s.params.maxAddr → readReg s v = .error c →
      exec i s = .next (faultedWith s c)) ∧
    ∀ x, readReg s v = .ok x →
      (a < s.params.maxAddr → exec i s = .next (issued s a (.write x) none)) ∧
      StoreCompletion i a x s := by
  refine ⟨fun hb => hexec.trans (storeTo_of_bound hb v),
    fun c hb hc => hexec.trans (storeTo_of_badValue hb hc), fun x hx => ?_⟩
  have hissue := fun hb => hexec.trans (storeTo_issues hb hx)
  exact ⟨hissue, storeCompletion_of_issues hissue⟩

/-- Settles O25. -/
theorem ldEffect : Obligations.LdEffect := by
  refine ⟨fun a b2 d => decodeWord_wordOfBytes 1 a b2 d, fun s a d => ?_⟩
  have hexec : exec (.ld a d) s = loadFrom s (readReg s a) d := rfl
  exact ⟨fun c hc => by rw [hexec, hc, loadFrom_error],
    fun addr ha => loadEffect_of_exec (by rw [hexec, ha])⟩

/-- Settles O26. -/
theorem ldaEffect : Obligations.LdaEffect := by
  refine ⟨fun lo hi d => decodeWord_wordOfBytes 2 lo hi d, ?_⟩
  rintro s addr16 d addr rfl
  exact loadEffect_of_exec (exec_lda s addr16 d)

/-- Settles O27. -/
theorem stEffect : Obligations.StEffect := by
  refine ⟨fun v a b3 => decodeWord_wordOfBytes 8 v a b3, fun s v a => ?_⟩
  have hexec : exec (.st v a) s = storeTo s (readReg s a) v := rfl
  exact ⟨fun c hc => by rw [hexec, hc, storeTo_error],
    fun addr ha => storeEffect_of_exec (by rw [hexec, ha])⟩

/-- Settles O28. -/
theorem staEffect : Obligations.StaEffect := by
  refine ⟨fun lo hi v => decodeWord_wordOfBytes 9 lo hi v, ?_⟩
  rintro s addr16 v addr rfl
  exact storeEffect_of_exec (exec_sta s addr16 v)

/-! ### One request at a time (R49, R102) -/

theorem Pending.length_erase_le (p : Pending) (id : Nat) : (p.erase id).length ≤ p.length :=
  List.length_filter_le ..

/-- Fixed instructions issue at most one request: from an empty table it holds one entry at most. -/
theorem exec_pending_le_one {i : Instr} {s t : State} (hh : s.handlers = []) (hp : s.pending = [])
    (h : exec i s = .next t) : t.pending.length ≤ 1 := by
  have noHandler : ∀ k, ¬ k < s.handlers.length := by simp [hh]
  have hnone : s.pending.length ≤ 1 := by simp [hp]
  cases exec_cases h with
  | fault c => exact hnone
  | advance _ => exact hnone
  | jump off _ => exact hnone
  | halt _ => exact hnone
  | request a k e _ _ _ => simp [hp, Pending.insert]
  | alu d v _ _ _ _ => exact hnone
  | custom w k st u p _ hk _ => exact absurd hk (noHandler k)
  | customFault w k st u c _ hk _ => exact absurd hk (noHandler k)

/-- A tick dispatches only with an empty table (R77), so it keeps the one request. -/
theorem advance_pending_le_one {s t : State} (hh : s.handlers = []) (h1 : s.pending.length ≤ 1)
    (h : advance s = .next t) : t.pending.length ≤ 1 := by
  rcases advance_cases h with ⟨rfl, -⟩ | ⟨-, -, rfl⟩ | ⟨-, -, hp, -, ⟨c, -, rfl⟩ | ⟨w, -, he⟩⟩
  · exact h1
  · exact h1
  · exact h1
  · exact exec_pending_le_one hh hp he

/-- A completion adds no entry (R95). -/
theorem onCompletion_pending_length_le {s t : State} {id : Nat} {data : Word}
    (h : onCompletion s id data = .next t) : t.pending.length ≤ s.pending.length := by
  rcases onCompletion_cases h with ⟨-, rfl⟩ | ⟨-, -, rfl⟩ | ⟨-, -, rfl⟩ | ⟨d, -, -, hw | ⟨c, rfl⟩⟩
  · exact le_rfl
  · exact le_rfl
  · exact Pending.length_erase_le s.pending id
  · obtain ⟨-, -, rfl⟩ := writeReg_ok.1 hw
    exact Pending.length_erase_le s.pending id
  · exact Pending.length_erase_le s.pending id

theorem memoryStep_pending_length_le {s t : State} {id : Nat} (h : memoryStep s id = .next t) :
    t.pending.length ≤ s.pending.length := by
  rcases memoryStep_completes h with rfl | ⟨r, -, -, m, data, hc⟩
  · exact le_rfl
  · exact (onCompletion_pending_length_le hc :)

theorem strayCompletion_pending {s t : State} {id : Nat} {data : Word}
    (h : strayCompletion s id data = .next t) : t.pending = s.pending := by
  rcases strayCompletion_cases h with rfl | ⟨-, -, rfl⟩
  · rfl
  · rfl

/-- Without handlers no handler steps. -/
theorem handlerStep_of_noHandlers {s t : State} {k choice : Nat} (hh : s.handlers = [])
    (h : handlerStep s k choice = .next t) : t = s := by
  rw [handlerStep, hh] at h
  cases h
  rfl

/-- Settles O59: the registry stays empty by O48, and agent by agent the table stays short. -/
theorem fixedInstructionsKeepOneRequest : Obligations.FixedInstructionsKeepOneRequest := by
  intro s t ⟨hh, h1⟩ hstep
  obtain ⟨-, -, -, hreg⟩ := launchConfigurationNeverChanges s t hstep
  rw [hh, List.map_nil, List.map_eq_nil_iff] at hreg
  refine ⟨hreg, ?_⟩
  rcases act_cases hstep with ⟨-, ha⟩ | ⟨-, -, rfl⟩ |
    ⟨-, ⟨id, -, hm⟩ | ⟨id, data, -, hc⟩ | ⟨k, choice, -, hs⟩⟩
  · exact advance_pending_le_one (s := (popEvent s).setStarted true) hh h1 ha
  · exact h1
  · exact (memoryStep_pending_length_le hm).trans h1
  · rw [strayCompletion_pending hc]
    exact h1
  · rw [handlerStep_of_noHandlers (s := popEvent s) hh hs]
    exact h1

end Sys2Proof.Machine
end


section
/-! PROOFS. The ALU instructions (42_alu.md): the end they share, the two-source template, and the
arithmetic that ties the model's operations to the words of the statements. -/

namespace Sys2Proof.Machine

open Sys2Proof.Statements

/-! ### The end of an ALU instruction (R105): the destination's check, or the write -/

/-- The three outcomes of the last step, by the destination: reserved, out of range, or written with
the latency set and the program counter advanced. -/
theorem commit_finishAlu (op d : Byte) (v : Word) (s : State) :
    (d.toNat < 2 →
      commit s (finishAlu op d v s) = .next (faultedWith s (.reservedRegisterWrite d s.pc))) ∧
    (s.n ≤ d.toNat →
      commit s (finishAlu op d v s) = .next (faultedWith s (.registerIndexOutOfRange d s.pc))) ∧
    (Writable s d → commit s (finishAlu op d v s) = .next { s with
      regs := s.regs.set (d.toNat - 2) v
      stall := latency s.params op
      pc := s.pc + 4 }) := by
  refine ⟨fun hlow => ?_, fun hhigh => ?_, fun ⟨h2, hn⟩ => ?_⟩
  · rw [finishAlu, writeReg_reserved hlow]
    rfl
  · rw [finishAlu, writeReg_outOfRange hhigh]
    rfl
  · rw [finishAlu_ok.2 ⟨h2, hn, rfl⟩]
    rfl

/-! ### The two-source template (R105, R140) -/

section
variable {op s1 s2 : Byte} {g : Word → Word → Word → Except FatalCondition Word} {s : State}
  {a b : Word} {c : FatalCondition}

theorem alu2_of_badFirst (h1 : readReg s s1 = .error c) (s2 d : Byte) :
    alu2 op g s1 s2 d s = .next (faultedWith s c) := by
  rw [alu2, h1]
  rfl

theorem alu2_of_badSecond (h1 : readReg s s1 = .ok a) (h2 : readReg s s2 = .error c) (d : Byte) :
    alu2 op g s1 s2 d s = .next (faultedWith s c) := by
  rw [alu2, h1, ok_bind, h2]
  rfl

theorem alu2_of_fatal (h1 : readReg s s1 = .ok a) (h2 : readReg s s2 = .ok b)
    (hg : g s.pc a b = .error c) (d : Byte) :
    alu2 op g s1 s2 d s = .next (faultedWith s c) := by
  rw [alu2, h1, ok_bind, h2, ok_bind, hg]
  rfl

theorem alu2_of_result {v : Word} (h1 : readReg s s1 = .ok a) (h2 : readReg s s2 = .ok b)
    (hg : g s.pc a b = .ok v) (d : Byte) :
    alu2 op g s1 s2 d s = commit s (finishAlu op d v s) := by
  rw [alu2, h1, ok_bind, h2, ok_bind, hg, ok_bind]

end

/-- What an instruction does that runs the two-source template: its operation `g` raises exactly the
condition `fatal` names, and answers `f` where there is none. -/
theorem aluEffect_of_exec {i : Byte → Byte → Byte → Instr} {op : Byte}
    {g : Word → Word → Word → Except FatalCondition Word}
    {fatal : Word → Word → Word → Option FatalCondition} {f : Word → Word → Word}
    (hdecode : ∀ s1 s2 d, decodeWord (wordOfBytes op s1 s2 d) = i s1 s2 d)
    (hexec : ∀ s1 s2 d s, exec (i s1 s2 d) s = alu2 op g s1 s2 d s)
    (hfatal : ∀ pc a b c, fatal pc a b = some c → g pc a b = .error c)
    (hresult : ∀ pc a b, fatal pc a b = none → g pc a b = .ok (f a b)) :
    AluEffect i op fatal f := by
  refine ⟨hdecode, fun s s1 s2 d => ?_⟩
  rw [hexec]
  refine ⟨fun c h1 => alu2_of_badFirst h1 s2 d, fun a c h1 h2 => alu2_of_badSecond h1 h2 d,
    fun a b h1 h2 => ⟨fun c hc => alu2_of_fatal h1 h2 (hfatal _ _ _ c hc) d, fun hnone => ?_⟩⟩
  rw [alu2_of_result h1 h2 (hresult _ _ _ hnone)]
  exact commit_finishAlu op d (f a b) s

/-- The same for an operation with no fatal condition of its own, `f'` in the model's words. -/
theorem aluEffect_of_total {i : Byte → Byte → Byte → Instr} {op : Byte} {f f' : Word → Word → Word}
    (hdecode : ∀ s1 s2 d, decodeWord (wordOfBytes op s1 s2 d) = i s1 s2 d)
    (hexec : ∀ s1 s2 d s, exec (i s1 s2 d) s = alu2 op (fun _ a b => .ok (f' a b)) s1 s2 d s)
    (hf : ∀ a b, f' a b = f a b) : AluEffect i op (fun _ _ _ => none) f :=
  aluEffect_of_exec hdecode hexec (fun _ _ _ _ hc => nomatch hc)
    fun _ a b _ => congrArg Except.ok (hf a b)

/-! ### ADD, SUB and MUL (R106 to R109): the exact integer, narrowed, is the word operation -/

theorem narrow_add (a b : Word) : narrow (a.toInt + b.toInt) = a + b := by
  rw [narrow, BitVec.ofInt_add, BitVec.ofInt_toInt, BitVec.ofInt_toInt]

theorem narrow_sub (a b : Word) : narrow (a.toInt - b.toInt) = a - b := by
  rw [narrow, Int.sub_eq_add_neg, BitVec.ofInt_add, BitVec.ofInt_neg, BitVec.ofInt_toInt,
    BitVec.ofInt_toInt, BitVec.sub_eq_add_neg]

theorem narrow_mul (a b : Word) : narrow (a.toInt * b.toInt) = a * b := by
  rw [narrow, BitVec.ofInt_mul, BitVec.ofInt_toInt, BitVec.ofInt_toInt]

/-- Settles O31: each runs the two-source template with the exact result narrowed. -/
theorem addSubMulEffect : Obligations.AddSubMulEffect :=
  ⟨aluEffect_of_total (decodeWord_wordOfBytes 16) (fun _ _ _ _ => rfl) narrow_add,
    aluEffect_of_total (decodeWord_wordOfBytes 17) (fun _ _ _ _ => rfl) narrow_sub,
    aluEffect_of_total (decodeWord_wordOfBytes 18) (fun _ _ _ _ => rfl) narrow_mul⟩

/-! ### AND, OR and XOR (R112 to R114): the word operation acts bit by bit -/

theorem and_eq_ofFnLE (a b : Word) : a &&& b = BitVec.ofFnLE fun i => a[i] && b[i] :=
  BitVec.eq_of_getElem_eq fun k hk => by
    rw [BitVec.getElem_and, BitVec.getElem_ofFnLE, Fin.getElem_fin, Fin.getElem_fin]

theorem or_eq_ofFnLE (a b : Word) : a ||| b = BitVec.ofFnLE fun i => a[i] || b[i] :=
  BitVec.eq_of_getElem_eq fun k hk => by
    rw [BitVec.getElem_or, BitVec.getElem_ofFnLE, Fin.getElem_fin, Fin.getElem_fin]

theorem xor_eq_ofFnLE (a b : Word) : a ^^^ b = BitVec.ofFnLE fun i => a[i] ^^ b[i] :=
  BitVec.eq_of_getElem_eq fun k hk => by
    rw [BitVec.getElem_xor, BitVec.getElem_ofFnLE, Fin.getElem_fin, Fin.getElem_fin]

/-- Settles O34: each runs the two-source template with the word operation. -/
theorem andOrXorEffect : Obligations.AndOrXorEffect :=
  ⟨aluEffect_of_total (decodeWord_wordOfBytes 32) (fun _ _ _ _ => rfl) and_eq_ofFnLE,
    aluEffect_of_total (decodeWord_wordOfBytes 33) (fun _ _ _ _ => rfl) or_eq_ofFnLE,
    aluEffect_of_total (decodeWord_wordOfBytes 34) (fun _ _ _ _ => rfl) xor_eq_ofFnLE⟩

/-! ### NOT (R115): the one-source template -/

theorem exec_not_of_badSource {s : State} {s1 : Byte} {c : FatalCondition}
    (h : readReg s s1 = .error c) (d : Byte) : exec (.not s1 d) s = .next (faultedWith s c) := by
  rw [exec, execNot, alu1, h]
  rfl

/-- The complement is the statement's `-a - 1`. -/
theorem exec_not_of_source {s : State} {s1 : Byte} {a : Word} (h : readReg s s1 = .ok a)
    (d : Byte) : exec (.not s1 d) s = commit s (finishAlu Opcode.not d (-a - 1) s) := by
  rw [exec, execNot, alu1, h, ok_bind, BitVec.not_eq_neg_add]
  rfl

/-- Settles O35: byte 2 of the word reaches no operand, and past its read NOT ends as every ALU
instruction does. -/
theorem notEffect : Obligations.NotEffect := by
  refine ⟨decodeWord_wordOfBytes 35, fun s s1 d => ⟨fun c h => exec_not_of_badSource h d, ?_⟩⟩
  intro a h
  rw [exec_not_of_source h]
  exact commit_finishAlu Opcode.not d (-a - 1) s

end Sys2Proof.Machine
end

section
/-! PROOFS. The conditional jumps (43_jump.md): the two outcomes of the rule they share, and their
conditions as the words of the statements. -/

namespace Sys2Proof.Machine

open Sys2Proof.Statements

/-! ### The common rule (R118): a bad test register, or a change of the program counter alone -/

theorem jumpIf_of_badTest {s : State} {t : Byte} {c : FatalCondition} (h : readReg s t = .error c)
    (cond : Word → Bool) (off : Half) : jumpIf cond t off s = .next (faultedWith s c) := by
  rw [jumpIf, h]
  rfl

theorem jumpIf_of_test {s : State} {t : Byte} {v : Word} (h : readReg s t = .ok v)
    (cond : Word → Bool) (off : Half) : jumpIf cond t off s =
      .next (s.setPc (if cond v then jumpTarget s.pc off else s.pc + 4)) := by
  rw [jumpIf, h]
  rfl

/-- What an instruction does that runs the common rule, its condition `test` deciding `cond`. -/
theorem jumpEffect_of_exec {i : Byte → Half → Instr} {op : Byte} {test : Word → Bool}
    {cond : Word → Prop}
    (hdecode : ∀ t lo hi, decodeWord (wordOfBytes op t lo hi) = i t (half lo hi))
    (hexec : ∀ t off s, exec (i t off) s = jumpIf test t off s)
    (htest : ∀ v, test v = true ↔ cond v) : JumpEffect i op cond := by
  refine ⟨hdecode, fun s t off => ?_⟩
  rw [hexec]
  refine ⟨fun c h => jumpIf_of_badTest h test off, fun v h => ?_⟩
  rw [jumpIf_of_test h]
  refine ⟨fun hv => ?_, fun hv => ?_⟩
  · rw [if_pos ((htest v).2 hv), jumpTarget_eq]
    rfl
  · rw [if_neg (mt (htest v).1 hv)]
    rfl

/-! ### The three conditions (R119 to R121) -/

/-- A word is zero exactly when it reads zero as a signed number. -/
theorem condZero_iff (v : Word) : condZero v = true ↔ v = 0 :=
  beq_iff_eq.trans (BitVec.toInt_inj (y := (0 : Word)))

theorem condNegative_iff (v : Word) : condNegative v = true ↔ v.toInt < 0 := decide_eq_true_iff

theorem condPositive_iff (v : Word) : condPositive v = true ↔ 0 < v.toInt := decide_eq_true_iff

/-- Settles O36: each jump runs the common rule with its own condition. -/
theorem conditionalJumpEffect : Obligations.ConditionalJumpEffect :=
  ⟨jumpEffect_of_exec (decodeWord_wordOfBytes 129) (fun _ _ _ => rfl) condZero_iff,
    jumpEffect_of_exec (decodeWord_wordOfBytes 130) (fun _ _ _ => rfl) condNegative_iff,
    jumpEffect_of_exec (decodeWord_wordOfBytes 131) (fun _ _ _ => rfl) condPositive_iff⟩

/-! ### The target (R122) -/

/-- Past its read a jump only moves the program counter, to an address of the same alignment. -/
theorem jumpIf_keeps_alignment {s : State} {t : Byte} {v : Word} (h : readReg s t = .ok v)
    (cond : Word → Bool) (off : Half) : ∃ p : Word,
      jumpIf cond t off s = .next { s with pc := p } ∧ p.toNat % 4 = s.pc.toNat % 4 := by
  refine ⟨_, jumpIf_of_test h cond off, ?_⟩
  split
  · exact jumpTarget_mod_four s.pc off
  · exact add_four_mod_four s.pc

/-- Settles O37: the common rule keeps the alignment, whatever the condition. -/
theorem jumpNeverFaultsOnItsTarget : Obligations.JumpNeverFaultsOnItsTarget := by
  intro s t off v h
  rw [List.forall_mem_cons, List.forall_mem_cons, List.forall_mem_singleton]
  exact ⟨jumpIf_keeps_alignment h condZero off, jumpIf_keeps_alignment h condNegative off,
    jumpIf_keeps_alignment h condPositive off⟩

end Sys2Proof.Machine
end

section
/-! PROOFS. Custom instructions (44_custom.md): a list of handler actions one action at a time, what the
dispatcher makes of the claiming handler's answer, and a handler's own steps. -/

namespace Sys2Proof.Machine

open Sys2Proof.Statements

/-! ### Handler actions (R127, R132, R133) -/

/-- An action that raises ends the list. -/
theorem applyActions_of_error {s : State} {act : Action} {c : FatalCondition}
    (h : applyAction s act = .error c) (p : Word) (acts : List Action) :
    applyActions s p (act :: acts) = (s, p, some c) := by
  rw [applyActions, h]

/-- After an action that goes through the rest of the list applies to what it left. -/
theorem applyActions_of_ok {s t : State} {act : Action} (h : applyAction s act = .ok t) (p : Word)
    (acts : List Action) :
    applyActions s p (act :: acts) = applyActions t (pcAfter p act) acts := by
  rw [applyActions, h]

/-- A read action leaves the core as it is where the checked read goes through. -/
theorem applyAction_read_ok {s : State} {i : Byte} {v : Word} (h : readReg s i = .ok v) :
    applyAction s (.read i) = .ok s := by
  rw [applyAction, h, ok_bind]

theorem applyAction_read_error {s : State} {i : Byte} {c : FatalCondition}
    (h : readReg s i = .error c) : applyAction s (.read i) = .error c := by
  rw [applyAction, h, error_bind]

/-- Settles O41: each action is its checked operation, which goes through or raises. -/
theorem handlerActionsAreChecked : Obligations.HandlerActionsAreChecked := fun _ p acts =>
  ⟨rfl, fun _ => rfl,
    fun _ _ h => applyActions_of_ok (applyAction_read_ok h) p acts,
    fun _ _ h => applyActions_of_error (applyAction_read_error h) p acts,
    fun i v _ h => applyActions_of_ok (act := .write i v) h p acts,
    fun i v _ h => applyActions_of_error (act := .write i v) h p acts,
    fun a d _ h => applyActions_of_ok (act := .load a d) h p acts,
    fun a d _ h => applyActions_of_error (act := .load a d) h p acts,
    fun a r _ h => applyActions_of_ok (act := .store a r) h p acts,
    fun a r _ h => applyActions_of_error (act := .store a r) h p acts⟩

/-- Settles O42: actions are register writes and requests sent, and each keeps the frame. -/
theorem handlerActionsFrame : Obligations.HandlerActionsFrame := by
  intro s t p q acts c h
  have hacted : Acted s t := by simpa only [h] using applyActions_acted s p acts
  obtain ⟨hpc, hstall, hrun, hhandlers, himage, hparams, hmem, -, hregs⟩ := hacted.frame
  exact ⟨hpc, hstall, hrun, himage, hmem, hparams, hhandlers, hregs⟩

/-! ### Who claims an opcode (R125, R126) -/

theorem canClaim_iff {h : Handler} {op : Byte} : h.canClaim op = true ↔ op ∈ h.claims :=
  List.contains_iff_mem

theorem claimant_of_unclaimed {s : State} {op : Byte} (h : ∀ g ∈ s.handlers, op ∉ g.claims) :
    claimant s op = none := by
  have hnone : s.handlers.findIdx? (·.canClaim op) = none :=
    List.findIdx?_eq_none_iff.2 fun g hg => Bool.eq_false_iff.2 (mt canClaim_iff.1 (h g hg))
  rw [claimant, hnone]

theorem claimant_of_firstClaimant {s : State} {op : Byte} {k : Nat} {h : Handler}
    (hk : FirstClaimant s op k h) : claimant s op = some (k, h) := by
  obtain ⟨hget, hclaims, hfirst⟩ := hk
  obtain ⟨hlt, rfl⟩ := List.getElem?_eq_some_iff.1 hget
  have hidx : s.handlers.findIdx? (·.canClaim op) = some k :=
    List.findIdx?_eq_some_iff_getElem.2 ⟨hlt, canClaim_iff.2 hclaims, fun j hj =>
      mt canClaim_iff.1 (hfirst j hj _ (List.getElem?_eq_getElem _))⟩
  rw [claimant, hidx]
  exact congrArg (Option.map fun g => (k, g)) hget

/-! ### The dispatch of a custom instruction (R126 to R129, R134) -/

/-- Settles O40: with no claimant the dispatcher raises before any effect. -/
theorem unclaimedCustomIsFatal : Obligations.UnclaimedCustomIsFatal := by
  intro s w h
  rw [exec, execCustom, claimant_of_unclaimed h]
  rfl

/-- What a claimed instruction does once its actions have been applied: the condition they raised ends
the run, else the status decides. -/
theorem exec_custom_of_actions {s t : State} {w : InstrWord} {k : Nat} {h : Handler} {r : Reply}
    {p : Word} {c : Option FatalCondition} (hk : FirstClaimant s (byteOfWord w 0) k h)
    (hr : r = h.execute w (viewOf s))
    (ha : applyActions (executed s k h r) s.pc r.actions = (t, p, c)) :
    (∀ f, c = some f → exec (.custom w) s = .next (faultedWith t f)) ∧
    (c = none → exec (.custom w) s =
      if r.status = 0 then .next { t with pc := p + 4 }
      else .next (faultedWith t (.unknownInstruction w s.pc (some r.status)))) := by
  have ⟨hget, _, _⟩ := hk
  have hview : h.execute w (coreView s) = r := hr.symm
  have happly : applyActions (setHandlerState s k r.state) s.pc r.actions = (t, p, c) := by
    rw [setHandlerState_eq r.state hget]
    exact ha
  simp only [exec, execCustom, claimant_of_firstClaimant hk, hview, happly]
  constructor
  · rintro f rfl
    rfl
  · rintro rfl
    rfl

/-- Settles O38: no action raised, so the status decides. -/
theorem claimedCustomEffect : Obligations.ClaimedCustomEffect := by
  intro s t w k h r p hk hr ha
  obtain ⟨-, hend⟩ := exec_custom_of_actions hk hr ha
  rw [hend rfl]
  exact ⟨fun h0 => if_pos h0, fun h0 => if_neg h0⟩

/-- Settles O39: the raised condition ends the instruction. -/
theorem customActionFault : Obligations.CustomActionFault := by
  intro s t w k h r p c hk hr ha
  obtain ⟨hraise, -⟩ := exec_custom_of_actions hk hr ha
  exact hraise c rfl

/-! ### A handler's own steps (R131, R135) -/

/-- A running core's handler step ends as its actions end: in what they left, or in a raise there. -/
theorem handlerStep_of_actions {s t : State} {k choice : Nat} {h : Handler} {st : HandlerState}
    {acts : List Action} {q : Word} {c : Option FatalCondition} (hr : s.run = .running)
    (hk : s.handlers[k]? = some h) (hst : h.stepChoice choice = some (st, acts))
    (ha : applyActions { s with handlers := s.handlers.set k { h with state := st } } s.pc acts =
      (t, q, c)) :
    (c = none → handlerStep s k choice = .next t) ∧
    ∀ f, c = some f → handlerStep s k choice = .next (faultedWith t f) := by
  have happly : applyActions (setHandlerState s k st) (setHandlerState s k st).pc acts =
      (t, q, c) := by rw [setHandlerState_eq st hk]; exact ha
  simp only [handlerStep, hk, hst, hr, happly]
  constructor
  · rintro rfl
    rfl
  · rintro f rfl
    rfl

/-- An event that names a handler is its step from the first tick on, and no move before it
(log 23). -/
theorem step_of_handler {s : State} {k choice : Nat} (h : nextEvent s = .handler k choice) :
    (s.started = true → step s = handlerStep (moved s) k choice) ∧
    (s.started = false → step s = .next (moved s)) := by
  rw [step_of_event h]
  exact ⟨fun hs => afterFirstTick_of_started (s := popEvent s) hs _,
    fun hs => afterFirstTick_of_not_started (s := popEvent s) hs _⟩

/-- Settles O43: SetPC moves the reference alone, for actions keep the program counter. -/
theorem handlerStepEffect : Obligations.HandlerStepEffect := by
  refine ⟨fun s k choice => step_of_handler, fun s t k choice h st acts q c hr hk hst ha => ?_⟩
  obtain ⟨hpc, -⟩ := handlerActionsFrame _ _ _ _ _ _ ha
  exact ⟨hpc, handlerStep_of_actions hr hk hst ha⟩

end Sys2Proof.Machine
end

section
/-! PROOFS. Fatal conditions (60_exceptions.md): the Faulted state is a run state like the others, which
a raise enters and no step leaves; a fixed instruction that raises has had no effect; and since a fatal
condition is a state, every agent's step has a next one. -/

namespace Sys2Proof.Machine

/-! ### Entering and keeping the Faulted state (R138) -/

/-- Settles O44: a raise is one update of `run`, and `run` stays after the end of a run. -/
theorem faultIsTerminal : Obligations.FaultIsTerminal := by
  refine ⟨fun c s => rfl, fun s t c hf hstep => ?_⟩
  have hended : s.run ≠ .running := by simp [hf]
  obtain ⟨hrun, -⟩ := endedRunNeverChanges s t hended hstep
  exact hrun.trans hf

/-! ### The precision of a fixed instruction's fault (R139) -/

/-- Settles O45: among the outcomes of a fixed instruction only the raise before any effect is Faulted;
HALT ends in Halted, and the others leave the core running. -/
theorem fixedInstructionFaultsArePrecise : Obligations.FixedInstructionFaultsArePrecise := by
  intro i s t c hfixed hr he hf
  have hne : s.run ≠ .faulted c := by simp [hr]
  cases exec_cases he with
  | fault d =>
    obtain rfl : d = c := RunState.faulted.inj hf
    rfl
  | advance _ => exact absurd hf hne
  | jump off _ => exact absurd hf hne
  | halt _ => exact RunState.noConfusion hf
  | request a k e _ _ _ => exact absurd hf hne
  | alu d v _ _ _ _ => exact absurd hf hne
  | custom w k st u p hi _ _ => exact absurd hi (hfixed w)
  | customFault w k st u d hi _ _ => exact absurd hi (hfixed w)

/-! ### Every agent's step answers a next state (log 8, log 10) -/

/-- A tick: every gate answers at once but the last, which dispatches (R76). -/
theorem advance_answers (s : State) : ∃ t, advance s = .next t := by
  unfold advance
  split
  · exact ⟨_, rfl⟩
  · exact ⟨_, rfl⟩
  split
  · exact ⟨_, rfl⟩
  split
  · exact ⟨_, rfl⟩
  split
  · exact ⟨_, rfl⟩
  · exact exec_answers _ s

theorem performRequest_answers (s : State) (r : Request) : ∃ t, performRequest s r = .next t := by
  cases hk : r.kind with
  | read =>
    rw [performRequest_read hk]
    exact onCompletion_answers ..
  | write v =>
    rw [performRequest_write hk]
    exact onCompletion_answers ..

theorem memoryStep_answers (s : State) (id : Nat) : ∃ t, memoryStep s id = .next t := by
  unfold memoryStep
  split
  · exact ⟨_, rfl⟩
  split
  · exact performRequest_answers s _
  · exact ⟨_, rfl⟩

theorem strayCompletion_answers (s : State) (id : Nat) (data : Word) :
    ∃ t, strayCompletion s id data = .next t := by
  unfold strayCompletion
  split
  · exact onCompletion_answers s id data
  · exact ⟨_, rfl⟩

theorem handlerStep_answers (s : State) (k choice : Nat) : ∃ t, handlerStep s k choice = .next t := by
  unfold handlerStep
  split
  · exact ⟨_, rfl⟩
  split
  · exact ⟨_, rfl⟩
  dsimp only
  split
  · split
    · exact ⟨_, rfl⟩
    · exact ⟨_, rfl⟩
  · exact ⟨_, rfl⟩
  · exact ⟨_, rfl⟩

/-- The gate of the first tick answers the state itself, or what it lets through answers (log 23). -/
theorem afterFirstTick_answers (s : State) {r : Result} (h : ∃ t, r = .next t) :
    ∃ t, afterFirstTick s r = .next t := by
  cases hs : s.started with
  | false => exact ⟨s, afterFirstTick_of_not_started hs r⟩
  | true => rwa [afterFirstTick_of_started hs r]

theorem act_answers (s : State) (e : Event) : ∃ t, act s e = .next t := by
  cases e with
  | tick => exact advance_answers (s.setStarted true)
  | memory id => exact afterFirstTick_answers s (memoryStep_answers s id)
  | stray id data => exact afterFirstTick_answers s (strayCompletion_answers s id data)
  | handler k choice => exact afterFirstTick_answers s (handlerStep_answers s k choice)

/-- Settles O47: whichever agent the schedule names, its step answers. -/
theorem stepAlwaysAnswersNext : Obligations.StepAlwaysAnswersNext := fun s =>
  act_answers (popEvent s) (nextEvent s)

end Sys2Proof.Machine
end

section
/-! PROOFS. Timing (70_reset_and_hazards.md): every run of fixed instructions that ends well is a run
of the same core without latencies under the fair schedule, but for steps in which that core stands
still; and the runs of one core that end well end in one state. -/

namespace Sys2Proof.Machine

open Sys2Proof.Statements

/-! ### A core without its timing (R162) -/

/-- The core with no latency and the fair schedule, past its first tick. -/
def State.untimed (s : State) : State :=
  { s with
    stall := 0
    params := { s.params with lat := [] }
    agenda := []
    later := .fair
    started := true }

section
variable (s : State)

@[simp] theorem State.untimed_pc : s.untimed.pc = s.pc := rfl
@[simp] theorem State.untimed_stall : s.untimed.stall = 0 := rfl
@[simp] theorem State.untimed_run : s.untimed.run = s.run := rfl
@[simp] theorem State.untimed_pending : s.untimed.pending = s.pending := rfl
@[simp] theorem State.untimed_handlers : s.untimed.handlers = s.handlers := rfl
@[simp] theorem State.untimed_maxAddr : s.untimed.params.maxAddr = s.params.maxAddr := rfl
@[simp] theorem State.untimed_inflight : s.untimed.inflight = s.inflight := rfl
@[simp] theorem State.untimed_started : s.untimed.started = true := rfl
@[simp] theorem State.untimed_setPc (x : Word) : (s.setPc x).untimed = s.untimed.setPc x := rfl
@[simp] theorem State.untimed_setPending (x : Pending) :
    (s.setPending x).untimed = s.untimed.setPending x := rfl
@[simp] theorem map_untimed_ok :
    State.untimed <$> (.ok s : Except FatalCondition State) = .ok s.untimed := rfl

end

theorem State.Inv.untimed {s : State} (h : s.Inv) : s.untimed.Inv := by
  obtain ⟨hmem, himage, hpending, hinflight, hwaits, -, hhalted⟩ := h
  exact ⟨hmem, himage, hpending, hinflight, hwaits, Nat.zero_le _, fun hr => ⟨(hhalted hr).1, rfl⟩⟩

/-! ### Operations do not see the timing -/

@[simp] theorem readReg_untimed (s : State) (i : Byte) : readReg s.untimed i = readReg s i :=
  readReg_congr rfl rfl i

theorem writeReg_untimed (s : State) (i : Byte) (v : Word) :
    writeReg s.untimed i v = State.untimed <$> writeReg s i v := by
  simp only [writeReg, apply_ite (State.untimed <$> ·)]
  rfl

theorem issueLoad_untimed (s : State) (a : Word) (d : Byte) :
    issueLoad s.untimed a d = State.untimed <$> issueLoad s a d := by
  simp only [issueLoad, apply_ite (State.untimed <$> ·)]
  rfl

theorem issueStore_untimed (s : State) (a : Word) (r : Byte) :
    issueStore s.untimed a r = State.untimed <$> issueStore s a r := by
  simp only [issueStore, readReg_untimed, apply_ite (State.untimed <$> ·), map_bind]
  rfl

theorem finishAlu_untimed (op d : Byte) (v : Word) (s : State) :
    finishAlu op d v s.untimed = State.untimed <$> finishAlu op d v s := by
  unfold finishAlu
  rw [writeReg_untimed, map_bind, bind_map_left]
  rfl

theorem commit_untimed {s t : State} {r : Except FatalCondition State} (h : commit s r = .next t) :
    commit s.untimed (State.untimed <$> r) = .next t.untimed := by
  cases r with
  | ok u => cases h; rfl
  | error c => cases h; rfl

/-! ### Instructions -/

theorem alu2_untimed {op : Byte} {f : Word → Word → Word → Except FatalCondition Word}
    {s1 s2 d : Byte} {s t : State} (h : alu2 op f s1 s2 d s = .next t) :
    alu2 op f s1 s2 d s.untimed = .next t.untimed := by
  simpa [alu2, finishAlu_untimed] using commit_untimed h

theorem alu1_untimed {op : Byte} {f : Word → Word} {s1 d : Byte} {s t : State}
    (h : alu1 op f s1 d s = .next t) : alu1 op f s1 d s.untimed = .next t.untimed := by
  simpa [alu1, finishAlu_untimed] using commit_untimed h

theorem loadFrom_untimed {s t : State} {addr : Except FatalCondition Word} {d : Byte}
    (h : loadFrom s addr d = .next t) : loadFrom s.untimed addr d = .next t.untimed := by
  simpa [loadFrom, issueLoad_untimed] using commit_untimed h

theorem storeTo_untimed {s t : State} {addr : Except FatalCondition Word} {v : Byte}
    (h : storeTo s addr v = .next t) : storeTo s.untimed addr v = .next t.untimed := by
  simpa [storeTo, issueStore_untimed] using commit_untimed h

theorem jumpIf_untimed {cond : Word → Bool} {b : Byte} {off : Half} {s t : State}
    (h : jumpIf cond b off s = .next t) : jumpIf cond b off s.untimed = .next t.untimed := by
  simpa [jumpIf] using commit_untimed h

/-- Without handlers an instruction does not see the timing. -/
theorem exec_untimed {i : Instr} {s t : State} (hh : s.handlers = []) (h : exec i s = .next t) :
    exec i s.untimed = .next t.untimed := by
  cases i with
  | noop => cases h; rfl
  | halt => cases h; rfl
  | ld a d => exact loadFrom_untimed h
  | lda addr d => exact loadFrom_untimed h
  | st v a => exact storeTo_untimed h
  | sta addr v => exact storeTo_untimed h
  | add s1 s2 d =>
    rw [exec, execAdd] at h ⊢
    exact alu2_untimed h
  | sub s1 s2 d =>
    rw [exec, execSub] at h ⊢
    exact alu2_untimed h
  | mul s1 s2 d =>
    rw [exec, execMul] at h ⊢
    exact alu2_untimed h
  | div s1 s2 d =>
    rw [exec, execDiv] at h ⊢
    exact alu2_untimed h
  | mod s1 s2 d =>
    rw [exec, execMod] at h ⊢
    exact alu2_untimed h
  | and s1 s2 d =>
    rw [exec, execAnd] at h ⊢
    exact alu2_untimed h
  | or s1 s2 d =>
    rw [exec, execOr] at h ⊢
    exact alu2_untimed h
  | xor s1 s2 d =>
    rw [exec, execXor] at h ⊢
    exact alu2_untimed h
  | not s1 d => exact alu1_untimed h
  | jzero b off => exact jumpIf_untimed h
  | jneg b off => exact jumpIf_untimed h
  | jpos b off => exact jumpIf_untimed h
  | custom w =>
    rw [unclaimedCustomIsFatal s w (by simp [hh])] at h
    cases h
    exact unclaimedCustomIsFatal s.untimed w (by simp [hh])

/-! ### Completions -/

theorem onCompletion_untimed {s t : State} {id : Nat} {data : Word}
    (h : onCompletion s id data = .next t) : onCompletion s.untimed id data = .next t.untimed := by
  by_cases hr : s.run = .running
  · match hf : s.pending.find id with
    | none =>
      rw [onCompletion_of_unknown hr hf] at h
      cases h
      exact onCompletion_of_unknown (s := s.untimed) hr hf data
    | some none =>
      rw [onCompletion_of_store hr hf] at h
      cases h
      exact onCompletion_of_store (s := s.untimed) hr hf data
    | some (some d) =>
      rw [onCompletion_of_load hr hf] at h
      rw [onCompletion_of_load (s := s.untimed) hr hf]
      simpa [← writeReg_untimed] using commit_untimed h
  · rw [onCompletion_of_ended hr] at h
    cases h
    exact onCompletion_of_ended (s := s.untimed) hr id data

theorem performRequest_untimed {s t : State} {r : Request} (h : performRequest s r = .next t) :
    performRequest s.untimed r = .next t.untimed := by
  cases hk : r.kind with
  | read =>
    rw [performRequest_read hk] at h ⊢
    exact onCompletion_untimed h
  | write v =>
    rw [performRequest_write hk] at h ⊢
    exact onCompletion_untimed h

/-! ### Steps -/

/-- With nothing pending nothing is in flight (R34). -/
theorem State.Inv.inflight_eq_nil {s : State} (h : s.Inv) (hp : s.pending = []) :
    s.inflight = [] :=
  List.eq_nil_iff_forall_not_mem.2 fun _ hr => (h.inflight_eq_singleton (by simp [hp]) hr).2 hp

theorem nextEvent_untimed (s : State) : nextEvent s.untimed = defaultEvent s.untimed := rfl

/-- With nothing pending, the next step of a core without timing is a tick. -/
theorem step_untimed_of_idle {s : State} (hi : s.inflight = []) (hh : s.handlers = []) :
    step s.untimed = advance s.untimed := by
  have he : nextEvent s.untimed = .tick := by
    simp [nextEvent_untimed, defaultEvent, hi, hh]
  exact step_of_tick he

/-- With one request in flight, it is the performance of that request. -/
theorem step_untimed_of_request {s : State} {r : Request} (hr : s.run = .running)
    (hi : s.inflight = [r]) (hadm : r.addr.toNat + 8 ≤ s.params.maxAddr.toNat) :
    step s.untimed = performRequest s.untimed r := by
  have he : nextEvent s.untimed = .memory r.id := by
    simp [nextEvent_untimed, defaultEvent, hr, hi, admissible, hadm]
  rw [step_of_event he]
  exact memoryStep_of_admissible (s := s.untimed) (by simp [hi]) hadm

/-- A run that does not end badly started from a state that had not ended badly (R86). -/
theorem safe_of_run_safe {k : Nat} {s t : State} (h : Sys2Proof.core.run k s = .next t)
    (ht : t.Safe) : s.Safe := by
  rintro ⟨c, hc⟩
  obtain ⟨-, hterminal⟩ := faultIsTerminal
  exact ht ⟨c, core_run_keeps (fun u v hu hv => hterminal u v c hu hv) h hc⟩

/-- `t` differs from `s` in timing alone, or is, but for timing, the next state of `s` without it. -/
def StillOrNext (s t : State) : Prop := t.untimed = s.untimed ∨ step s.untimed = .next t.untimed

theorem advance_stillOrNext {s t : State} (hinv : s.untimed.Inv) (hh : s.handlers = [])
    (h : advance s = .next t) : StillOrNext s t := by
  rcases advance_cases h with ⟨rfl, -⟩ | ⟨-, -, rfl⟩ | ⟨hr, -, hp, -, hfetch⟩
  · exact .inl rfl
  · exact .inl rfl
  have hopen : GatesOpen s.untimed := ⟨hr, rfl, hp, by simp [hh]⟩
  right
  rw [step_untimed_of_idle (s := s) (hinv.inflight_eq_nil hp) hh]
  rcases hfetch with ⟨c, hf, rfl⟩ | ⟨w, hf, he⟩
  · exact advance_of_fetch_error hopen hf
  · rw [advance_of_fetch hopen hf]
    exact exec_untimed hh he

theorem memoryStep_stillOrNext {s t : State} {id : Nat} (hinv : s.untimed.Inv)
    (hone : s.pending.length ≤ 1) (hsafe : s.Safe) (h : memoryStep s id = .next t) :
    StillOrNext s t := by
  rcases memoryStep_cases h with rfl | ⟨r, hmem, -, hadm, hp⟩
  · exact .inl rfl
  obtain ⟨halone, hpending⟩ := hinv.inflight_eq_singleton hone hmem
  have hr : s.run = .running := by
    cases hrun : s.run with
    | running => rfl
    | halted =>
      obtain ⟨-, -, -, -, -, -, hhalted⟩ := hinv
      exact absurd (hhalted hrun).1 hpending
    | faulted c => exact absurd ⟨c, hrun⟩ hsafe
  right
  rw [step_untimed_of_request hr halone hadm]
  exact performRequest_untimed hp

/-- Whichever agent steps, unless it ends the run badly: fixed instructions wait for their one request,
so the core without timing has the same step next, or stands still. -/
theorem step_stillOrNext {s t : State} (hinv : s.untimed.Inv) (hfixed : s.FixedOnly)
    (h : step s = .next t) (ht : t.Safe) : StillOrNext s t := by
  obtain ⟨hh, hone⟩ := hfixed
  have hsafe : s.Safe := safe_of_run_safe (core_run_succ h 0) ht
  rcases act_cases h with ⟨-, ha⟩ | ⟨-, -, rfl⟩ |
    ⟨-, ⟨id, -, hm⟩ | ⟨id, data, -, hc⟩ | ⟨k, choice, -, hs⟩⟩
  · exact advance_stillOrNext (s := (popEvent s).setStarted true) hinv hh ha
  · exact .inl rfl
  · exact memoryStep_stillOrNext (s := popEvent s) hinv hone hsafe hm
  · rcases strayCompletion_cases hc with rfl | ⟨-, -, rfl⟩
    · exact .inl rfl
    · exact absurd ⟨_, rfl⟩ ht
  · rw [handlerStep_of_noHandlers (s := popEvent s) hh hs]
    exact .inl rfl

/-! ### Runs -/

/-- A run of fixed instructions that does not end badly is a run of the core without timing. -/
theorem reaches_untimed {k : Nat} {s t : State} (hinv : s.untimed.Inv) (hfixed : s.FixedOnly)
    (h : Sys2Proof.core.run k s = .next t) (ht : t.Safe) : Reaches s.untimed t.untimed := by
  induction k generalizing s with
  | zero =>
    rw [core_run_zero] at h
    cases h
    exact ⟨0, core_run_zero _⟩
  | succ k ih =>
    obtain ⟨u, hstep, hrun⟩ := core_run_succ_next h
    have hu : u.FixedOnly := fixedInstructionsKeepOneRequest s u hfixed hstep
    rcases step_stillOrNext hinv hfixed hstep (safe_of_run_safe hrun ht) with hstill | hnext
    · rw [← hstill] at hinv ⊢
      exact ih hinv hu hrun
    · obtain ⟨j, hj⟩ := ih (stepKeepsInvariant _ _ hinv hnext) hu hrun
      exact ⟨j + 1, (core_run_succ hnext j).trans hj⟩

/-- A run from a state that steps to itself ends there. -/
theorem core_run_of_fixed {k : Nat} {s t : State} (hs : step s = .next s)
    (h : Sys2Proof.core.run k s = .next t) : t = s :=
  core_run_keeps (P := fun u => u = s)
    (fun u v hu hv => by
      rw [hu, hs] at hv
      cases hv
      rfl) h rfl

/-- Two runs from one state that both end where the machine steps to itself end in one state. -/
theorem core_run_fixed_unique {j k : Nat} {s t u : State} (ht : step t = .next t)
    (hu : step u = .next u) (hj : Sys2Proof.core.run j s = .next t)
    (hk : Sys2Proof.core.run k s = .next u) : t = u := by
  induction j generalizing k s with
  | zero =>
    rw [core_run_zero] at hj
    cases hj
    exact (core_run_of_fixed ht hk).symm
  | succ j ih =>
    cases k with
    | zero =>
      rw [core_run_zero] at hk
      cases hk
      exact core_run_of_fixed hu hj
    | succ k =>
      obtain ⟨v, hv, hj⟩ := core_run_succ_next hj
      obtain ⟨w, hw, hk⟩ := core_run_succ_next hk
      rw [hv] at hw
      cases hw
      exact ih hj hk

/-- A halted core without timing steps to itself (R85). -/
theorem step_untimed_of_halted {s : State} (h : s.run = .halted) :
    step s.untimed = .next s.untimed := by
  have he : nextEvent s.untimed = .tick := by
    simp [nextEvent_untimed, defaultEvent, h]
  exact (step_of_tick he).trans (advance_of_not_running (s := s.untimed) (by simp [h]))

/-- Settles O60: both runs are runs of the one core without timing, and a halted core stays. -/
theorem scheduleAndLatencyDoNotMatter : Obligations.ScheduleAndLatencyDoNotMatter := by
  intro s₁ s₂ t₁ t₂ k₁ k₂ hinv hfixed hs h₁ h₂ ht₁ ht₂
  have huntimed : s₂.untimed = s₁.untimed := by
    rw [hs]
    rfl
  have hfixed₂ : s₂.FixedOnly := by
    rw [hs]
    exact hfixed
  have hsafe : ∀ {t : State}, t.run = .halted → t.Safe := fun ht ⟨c, hc⟩ => by simp [ht] at hc
  obtain ⟨j₁, hj₁⟩ := reaches_untimed hinv.untimed hfixed h₁ (hsafe ht₁)
  obtain ⟨j₂, hj₂⟩ := reaches_untimed (huntimed ▸ hinv.untimed) hfixed₂ h₂ (hsafe ht₂)
  rw [huntimed] at hj₂
  have heq : t₁.untimed = t₂.untimed := core_run_fixed_unique (step_untimed_of_halted ht₁)
    (step_untimed_of_halted ht₂) hj₁ hj₂
  exact ⟨(congrArg State.regs heq :), (congrArg State.pc heq :), (congrArg State.mem heq :)⟩

end Sys2Proof.Machine
end

section
/-! PROOFS. DIV and MOD (42_alu.md): the two checks they share in the words of the statements, and
the law of the division they compute; then the words of the test vectors (95_test_vectors.md). -/

namespace Sys2Proof.Machine

open Sys2Proof.Statements

/-! ### The fatal conditions of DIV and MOD (R106) -/

theorem toInt_eq_zero_iff (b : Word) : b.toInt = 0 ↔ b = 0 :=
  BitVec.toInt_inj (y := (0 : Word))

theorem toInt_eq_intMin_iff (a : Word) : a.toInt = -2 ^ 63 ↔ a = BitVec.intMin 64 :=
  BitVec.toInt_inj (y := BitVec.intMin 64)

theorem toInt_eq_neg_one_iff (b : Word) : b.toInt = -1 ↔ b = -1 :=
  BitVec.toInt_inj (y := (-1 : Word))

/-- The checks read the operands signed; the statements name the words. -/
theorem dividing_eq_elim (f : Int → Int → Int) (pc a b : Word) : dividing f pc a b =
    (divideFatal pc a b).elim (.ok (narrow (f a.toInt b.toInt))) .error := by
  rw [dividing, divideFatal]
  simp only [toInt_eq_zero_iff, toInt_eq_intMin_iff, toInt_eq_neg_one_iff]
  split_ifs <;> rfl

theorem dividing_of_fatal (f : Int → Int → Int) (pc a b : Word) (c : FatalCondition)
    (h : divideFatal pc a b = some c) : dividing f pc a b = .error c := by
  rw [dividing_eq_elim, h, Option.elim_some]

theorem dividing_of_not_fatal (f : Int → Int → Int) {pc a b : Word}
    (h : divideFatal pc a b = none) : dividing f pc a b = .ok (narrow (f a.toInt b.toInt)) := by
  rw [dividing_eq_elim, h, Option.elim_none]

theorem divideFatal_eq_none_iff {pc a b : Word} :
    divideFatal pc a b = none ↔ b ≠ 0 ∧ ¬ (a = BitVec.intMin 64 ∧ b = -1) := by
  rw [divideFatal]
  split_ifs with hzero hover
  · simp [hzero]
  · simp [hover]
  · exact iff_of_true rfl ⟨hzero, hover⟩

/-! ### The effect (R110, R111) -/

theorem narrow_truncDiv (a b : Word) :
    narrow (truncDiv a.toInt b.toInt) = BitVec.ofInt 64 (a.toInt.tdiv b.toInt) := by
  rw [narrow, truncDiv_eq_tdiv]

theorem narrow_truncRem (a b : Word) :
    narrow (truncRem a.toInt b.toInt) = BitVec.ofInt 64 (a.toInt.tmod b.toInt) := by
  rw [narrow, truncRem_eq_tmod]

/-- Settles O32: both run the two-source template with the shared checks, and their exact results are
the library's truncating quotient and remainder. -/
theorem divModEffect : Obligations.DivModEffect :=
  ⟨aluEffect_of_exec (decodeWord_wordOfBytes 19) (fun _ _ _ _ => rfl) (dividing_of_fatal truncDiv)
      fun _ a b h => (dividing_of_not_fatal truncDiv h).trans (congrArg _ (narrow_truncDiv a b)),
    aluEffect_of_exec (decodeWord_wordOfBytes 20) (fun _ _ _ _ => rfl) (dividing_of_fatal truncRem)
      fun _ a b h => (dividing_of_not_fatal truncRem h).trans (congrArg _ (narrow_truncRem a b))⟩

/-! ### The law (R106): narrowing loses nothing of the quotient or the remainder -/

/-- Only the most negative dividend by -1 has a quotient out of 64 bits, and that is fatal. -/
theorem toInt_narrow_truncDiv {pc a b : Word} (h : divideFatal pc a b = none) :
    (narrow (truncDiv a.toInt b.toInt)).toInt = a.toInt.tdiv b.toInt := by
  obtain ⟨-, hover⟩ := divideFatal_eq_none_iff.1 h
  rw [narrow_truncDiv, BitVec.toInt_ofInt, ← BitVec.toInt_sdiv,
    BitVec.toInt_sdiv_of_ne_or_ne a b (not_and_or.1 hover)]

/-- A remainder is never out of 64 bits. -/
theorem toInt_narrow_truncRem (a b : Word) :
    (narrow (truncRem a.toInt b.toInt)).toInt = a.toInt.tmod b.toInt := by
  rw [narrow_truncRem, ← BitVec.toInt_srem, BitVec.ofInt_toInt]

theorem natAbs_tmod_lt (x : Int) {y : Int} (hy : y ≠ 0) : (x.tmod y).natAbs < y.natAbs := by
  rw [Int.natAbs_tmod]
  exact Nat.mod_lt _ (Int.natAbs_pos.2 hy)

theorem tmod_eq_zero_or_sign_eq (x y : Int) : x.tmod y = 0 ∨ (x.tmod y).sign = x.sign := by
  by_cases hdvd : y ∣ x
  · exact .inl (Int.tmod_eq_zero_of_dvd hdvd)
  · exact .inr (by rw [Int.sign_tmod, if_neg hdvd])

/-- Settles O33: the exact quotient and remainder obey the law, and both survive the narrowing. -/
theorem divisionLaw : Obligations.DivisionLaw := by
  intro a b h
  obtain ⟨hzero, -⟩ := divideFatal_eq_none_iff.1 h
  refine ⟨_, _, dividing_of_not_fatal truncDiv h, dividing_of_not_fatal truncRem h, ?_⟩
  rw [toInt_narrow_truncDiv h, toInt_narrow_truncRem]
  exact ⟨(Int.tdiv_mul_add_tmod _ _).symm,
    natAbs_tmod_lt _ (mt (toInt_eq_zero_iff b).1 hzero), tmod_eq_zero_or_sign_eq _ _⟩

/-! ### The words of the test vectors (95_test_vectors.md L1.3, L2.1, L2.5, L3) -/

/-- Settles O6: each word by its four bytes, byte 0 the opcode. -/
theorem specWordsDecode : Obligations.SpecWordsDecode :=
  ⟨decodeWord_wordOfBytes 0x10 0x02 0x03 0x04, decodeWord_wordOfBytes 0x02 0x00 0x00 0x02,
    decodeWord_wordOfBytes 0x08 0x03 0x02 0x00, decodeWord_wordOfBytes 0x81 0x05 0xF8 0xFF,
    decodeWord_wordOfBytes 0xFF 0xFF 0xFF 0xFF, decodeWord_wordOfBytes 0x00 0x00 0x00 0x00,
    decodeWord_wordOfBytes 0x23 0x04 0xEE 0x05, decodeWord_wordOfBytes 0xC8 0x02 0x00 0x03⟩

end Sys2Proof.Machine
end
